-- ==== Sys2Proof/Word.lean ====
section
/-!
DEFINITION. The word, the byte and the register id of the x16 CORE (spec/00_scope.md R6, R7, R13).
-/

namespace Sys2Proof

/-- R6: "Every register, every memory cell, the program counter and every instruction is exactly 16 bits". Addition
on words wraps modulo 2^16 (R13). -/
abbrev Word := BitVec 16

/-- R203: the image file is counted in bytes; nothing inside the machine is. -/
abbrev Byte := BitVec 8

/-- R21: a register is selected by a 3-bit id, 0 to 7. -/
abbrev RegId := BitVec 3

/-- R24: R7 is the link register. -/
def linkReg : RegId := 7

end Sys2Proof
end

