-- ==== Sys2Proof/Machine/Data.lean ====
section
/-!
DEFINITION. The types the state and the trap port are made of: condition code, memory, fatal reasons, run status,
completion signal, and the handler's accessor calls.
-/

namespace Sys2Proof.Machine

/-- R29: the condition code "holds exactly one of three values" at all times. -/
inductive Cond where
  | neg
  | zro
  | pos
deriving DecidableEq, Repr, Inhabited

/-- R20, R41: "a fixed-size word-addressable memory array" of 16-bit cells. -/
structure Memory where
  /-- MEM_WORDS, the number of cells of the array (R8): 65536, or fewer where a launch says so (R43). -/
  words : Nat
  /-- The cells that differ from `Config.unlistedCell`, as (address, value), addresses strictly rising. -/
  cells : List (Nat × Word)
deriving DecidableEq, Repr, Inhabited

/-- The primitives of the bit-field toolkit that have a precondition (R81 to R84). -/
inductive Primitive where
  | getBit
  | getBits
  | setBit
  | clearBit
  | signExtend
deriving DecidableEq, Repr

/-- R180: the reasons of a fatal event. -/
inductive FatalReason where
  /-- R181: a word whose opcode is one of the two reserved values was executed; it records the 4-bit opcode. -/
  | reservedOpcode (op : BitVec 4)
  /-- R182: a toolkit primitive was called outside its precondition; it records the primitive. -/
  | contractViolation (p : Primitive)
  /-- R183: a fetch, read or write at an address that is not below MEM_WORDS; it records the address. -/
  | accessFault (addr : Word)
deriving DecidableEq, Repr

/-- R31: how the tick loop stands. -/
inductive Status where
  /-- The last tick returned continue, or no tick has run yet. -/
  | running
  /-- The trap handler returned halt/error. -/
  | stopped
  /-- The engine aborted. -/
  | fatal (r : FatalReason)
deriving DecidableEq, Repr

/-- R80, R92: the completion signal. "halt/error" is one value (R196). -/
inductive Signal where
  | continue
  | haltOrError
deriving DecidableEq, Repr, Inhabited

/-- R80: the calls of the accessor port that change the state or that the accessor's range check can stop. The trap
handler reaches the machine through them and nothing else (R170: "through the same accessor the engine uses"). -/
inductive AccessorCall where
  | regWrite (id : RegId) (v : Word)
  | pcWrite (v : Word)
  | ccWrite (c : Cond)
  | memRead (addr : Word)
  | memWrite (addr : Word) (v : Word)
deriving DecidableEq, Repr

/-- R170: one answer of the trap handler: what it did to the machine, in order, and the signal it returned. -/
structure HandlerAnswer where
  calls : List AccessorCall
  signal : Signal
deriving DecidableEq, Repr, Inhabited

end Sys2Proof.Machine
end

