-- ==== Sys2Proof/Config.lean ====
section
/-!
DEFINITION. What is fixed for a machine: the size of its address space, what a cell nothing has written reads as, and the
trap handler, which is a parameter of the model (spec/44_trap_reserved.md R170).
-/

namespace Sys2Proof.Config

open Sys2Proof.Machine

/-- R8: "This spec takes the parameter `MEM_WORDS = 65536`, so every 16-bit address names a cell". The size of the array
at reset, and the largest that R8 lets a launch give (`launch` does not check it; log 7). -/
def memWords : Nat := 65536

/-- DESIGN CHOICE (log 3, unsafe): what a cell that no one has written reads as. R205 makes it a launch parameter, any
value; a launch lists the cells that hold another one. -/
def unlistedCell : Word := 0

/-- R170, D11 (log 11): TRAP_HANDLER, a FREE VALUE. Nothing is known of it: it answers the raw instruction word, called
with the state that step 1 of the TRAP tick left (registers, PC, CC, memory). The last argument is the number of
the call in the run, so that two calls with equal words and states may be answered differently: the spec's handler is
a relation, and what it answers may come from outside the machine. -/
opaque trapHandler (instr : Word) (regs : Vector Word 8) (pc : Word) (cc : Cond) (mem : Memory) (call : Nat) :
  HandlerAnswer

end Sys2Proof.Config
end

