-- ==== Sys2Proof/WellFormed.lean ====
section
/-!
DEFINITION. The checks on data whose type alone does not make it meaningful: the memory's canonical form, and the program
image (spec/70_reset_and_hazards.md R203, R204).

An instruction needs no check: each operand of `Instr` has exactly its field's width (R61), every register id names a
register (R21), and every word that is not reserved is a defined instruction (R71). The two reserved rows are constructors
too, and executing one is a fatal event, not an ill-formed term (R172).
-/

namespace Sys2Proof.Machine

/-- The canonical form of a list of cells: addresses strictly rising from `lo`, all below `hi`, and no entry equal to what
an unlisted cell reads as. -/
def cellsCanonical (lo hi : Nat) : List (Nat × Word) → Bool
  | [] => true
  | (a, v) :: rest => decide (lo ≤ a) && decide (a < hi) && decide (v ≠ Config.unlistedCell) && cellsCanonical (a + 1) hi rest

/-- The memory's canonical form, with a size that R8 allows: `1 <= MEM_WORDS <= 65536`. Memories of this form that read
alike and have one size are equal. -/
def Memory.wf (m : Memory) : Bool :=
  decide (1 ≤ m.words) && decide (m.words ≤ 65536) && cellsCanonical 0 m.words m.cells

/-- R203: the big-endian 16-bit words of a file, the first byte of each being bits 15..8. A last odd byte is no word. -/
def imageWords : List Byte → List Word
  | b0 :: b1 :: rest => (b0 ++ b1) :: imageWords rest
  | _ => []

/-- R204, D9: a launch is refused, "with no run", for one of these. -/
inductive LaunchRefusal where
  /-- The file has an odd number of bytes. Raised by `launch`; safe: no run, so no claim. -/
  | oddBytes
  /-- The file has fewer than 2 bytes, so no load address. Raised by `launch`; safe. -/
  | noLoadAddress
  /-- L + n > MEM_WORDS: the image runs off the top of memory, or has no word and lies above it (log 19). Raised by
  `launch`; safe. -/
  | doesNotFit
deriving DecidableEq, Repr

/-- R204: the first of the three checks that a file fails, in the rule's order (the order is log 19's); or the load
address and the program words of a good file.

DESIGN CHOICE (log 19): a file with n = 0 and L > MEM_WORDS, which only a small memory allows, meets both R204's clause
`L + n > MEM_WORDS` and its "An image with n = 0 is accepted"; it is refused (doesNotFit). -/
def checkImage (memWords : Nat) (bytes : List Byte) : Except LaunchRefusal (Word × List Word) :=
  if bytes.length % 2 = 1 then .error .oddBytes
  else
    match imageWords bytes with
    | [] => .error .noLoadAddress
    | load :: program =>
      if load.toNat + program.length ≤ memWords then .ok (load, program) else .error .doesNotFit

end Sys2Proof.Machine
end

