-- ==== Sys2Proof/Machine/State.lean ====
section
/-!
DEFINITION. The state of the machine (spec/10_state.md R20, R31), the outcomes a step can stop with, and the state right
after reset.
-/

namespace Sys2Proof.Machine

/-- R20: "The architectural state is exactly this": R[0..7], PC, CC, MEM; and R31's run status. `trapCalls` and
`trapHang` are the model's own (log 11, log 12). -/
structure State where
  /-- R21: R0 to R7. -/
  regs : Vector Word 8
  /-- R25: the program counter. -/
  pc : Word
  /-- R29: the condition code. -/
  cc : Cond
  /-- R20, R41: the one memory, for instructions and data. -/
  mem : Memory
  /-- R31: the run status. -/
  status : Status
  /-- The model's own: how many TRAP calls of the run have returned, which is the number of the next one. -/
  trapCalls : Nat
  /-- The model's own: the TRAP call, if any, at which the handler never returns (R170). No step changes it. -/
  trapHang : Option Nat
deriving DecidableEq, Repr

/-- Why a step stops without a next state. -/
inductive Fault where
  /-- Raised by `step` when the status is Stopped: "A tick runs only in status `Running`" (R31). The run has ended (R196);
  this is the one end that can be a successful halt. Safe: the hardware runs no tick here either. -/
  | runStopped
  /-- Raised by `step` when the status is Fatal: "no further tick runs" (R180). Safe, for the same reason. -/
  | runFatal (r : FatalReason)
  /-- Raised by TRAP at the call that `trapHang` names: the handler "may have no result"; "The tick then never completes:
  the run is stuck" (R170). Safe: the model goes no further than the hardware. -/
  | handlerNeverReturns
deriving DecidableEq, Repr

/-- Why a step has no meaning. -/
inductive Refusal where
  /-- Raised by `exec`'s refused arms only, and there are none: every instruction has its meaning. Safe. -/
  | notModelled (mnemonic : String)
deriving DecidableEq, Repr

/-- What a step or a meaning answers. -/
abbrev Result := Host.Outcome State Fault Refusal

/-- The machine right after reset. Only the status (R206) and the size of memory (R8) are the spec's; the registers, CC,
PC and memory are launch parameters there (R200, R201, R202, R205), and the values here are DESIGN CHOICES (log 3, 4,
5, 6, unsafe). `launch` takes them all as arguments. -/
def State.reset : State :=
  { regs := Vector.replicate 8 0
    pc := 0
    cc := .zro
    mem := { words := Config.memWords, cells := [] }
    status := .running
    trapCalls := 0
    trapHang := none }

end Sys2Proof.Machine
end

