-- ==== Sys2Proof/Machine/Ops.lean ====
section
/-!
DEFINITION. The operations of the machine-state accessor (spec/20_memory.md R40, spec/40_engine.md R80), fatal events (R180)
and the call of the trap handler (R170, R171). Every meaning reaches the state through these.

There is no return from a fatal event and no exception entry inside the machine (R187, R188): raising a fatal event is
the whole of it.
-/

namespace Sys2Proof.Machine

/-- R14: `R[i]`. No register is hardwired (R21). -/
def State.readReg (s : State) (r : RegId) : Word := s.regs[r.toNat]'r.isLt

/-- R14: `R[i] <- v`. -/
def State.writeReg (s : State) (r : RegId) (v : Word) : State := { s with regs := s.regs.set r.toNat v r.isLt }

/-- R14: `pc <- target`. Every 16-bit value is a valid instruction address (R28). -/
def State.writePc (s : State) (v : Word) : State := { s with pc := v }

/-- R89: `pc <- a + 1`, modulo 2^16 (R27). -/
def State.incPc (s : State) : State := s.writePc (s.pc + 1)

/-- R80: `cc_write`. -/
def State.writeCc (s : State) (c : Cond) : State := { s with cc := c }

/-- The value of one cell of a list of cells. -/
def readCell (a : Nat) : List (Nat × Word) → Word
  | [] => Config.unlistedCell
  | (b, v) :: rest => if a = b then v else readCell a rest

/-- The cell put where its address belongs in a list of rising addresses that does not list it. -/
def insertCell (a : Nat) (v : Word) : List (Nat × Word) → List (Nat × Word)
  | [] => [(a, v)]
  | (b, w) :: rest => if a < b then (a, v) :: (b, w) :: rest else (b, w) :: insertCell a v rest

/-- The list without the cell at `a`. -/
def eraseCell (a : Nat) : List (Nat × Word) → List (Nat × Word)
  | [] => []
  | (b, w) :: rest => if a = b then eraseCell a rest else (b, w) :: eraseCell a rest

/-- The cells after a write. The canonical form is kept: a value that an unlisted cell reads as is not listed. -/
def writeCell (a : Nat) (v : Word) (cells : List (Nat × Word)) : List (Nat × Word) :=
  if v = Config.unlistedCell then eraseCell a cells else insertCell a v (eraseCell a cells)

/-- R42, R43: `MemRead(addr, 1)`. Plain storage (D3, log 9); at an address that is not below MEM_WORDS the answer is
Fatal(AccessFault(addr)) (D4, log 8). -/
def State.memRead (s : State) (addr : Word) : Except FatalReason Word :=
  if addr.toNat < s.mem.words then .ok (readCell addr.toNat s.mem.cells) else .error (.accessFault addr)

/-- R42, R43: `MemWrite(addr, 1, v)`. "No cell changes" when the address is out of range. -/
def State.memWrite (s : State) (addr : Word) (v : Word) : Except FatalReason State :=
  if addr.toNat < s.mem.words then
    .ok { s with mem := { s.mem with cells := writeCell addr.toNat v s.mem.cells } }
  else .error (.accessFault addr)

/-- R180: `raise Fatal(reason)`. It sets the status and "leaves every other part of the state as it was at that
point"; it saves nothing and transfers control nowhere (R187). The end of the run is `step`'s answer to the status. -/
def State.raiseFatal (s : State) (r : FatalReason) : State := { s with status := .fatal r }

/-- A step of a meaning that may raise a fatal event: it goes on with the value, or raises the event in the state `s` as
it stands and ends the tick (R180). -/
def State.orFatal {α : Type} (s : State) (x : Except FatalReason α) (k : α → Result) : Result :=
  match x with
  | .ok v => k v
  | .error r => .next (s.raiseFatal r)

/-- R92, R93 step 4: the completion signal. A tick runs only in status Running, so Continue leaves the status as it is (log
15); HaltOrError makes it Stopped (R184). -/
def State.complete (s : State) : Signal → State
  | .continue => s
  | .haltOrError => { s with status := .stopped }

/-- R80, R170: one accessor call of the trap handler. -/
def State.accessorCall (s : State) : AccessorCall → Except FatalReason State
  | .regWrite id v => .ok (s.writeReg id v)
  | .pcWrite v => .ok (s.writePc v)
  | .ccWrite c => .ok (s.writeCc c)
  | .memRead addr => (s.memRead addr).map fun _ => s
  | .memWrite addr v => s.memWrite addr v

/-- R170: the handler's accessor calls in order, each in the state the one before it left; the first that the accessor's
range check stops answers its fatal event (R183). -/
def State.runCalls (s : State) : List AccessorCall → Except FatalReason State
  | [] => .ok s
  | c :: rest =>
    match s.accessorCall c with
    | .ok s' => s'.runCalls rest
    | .error r => .error r

/-- R171: `state <- s'`, then the handler's signal: the handler's calls take effect when it returns, and the call is counted
then (log 11). Where one of them is out of range it never returns: the fatal event is raised in the state the handler was
called with, so that it is precise (R187, D13; log 13). -/
def State.runHandler (s : State) (calls : List AccessorCall) (sig : Signal) : State :=
  match s.runCalls calls with
  | .ok s' => { s' with trapCalls := s'.trapCalls + 1 }.complete sig
  | .error r => s.raiseFatal r

/-- R170: the answer of TRAP_HANDLER to `instr` in the state `s`: a free value (log 11). -/
def State.handlerAnswer (s : State) (instr : Word) : HandlerAnswer :=
  Config.trapHandler instr s.regs s.pc s.cc s.mem s.trapCalls

/-- R171: `TrapCall(instr)`. The engine writes no register, no CC and no memory of its own: the state is what the
handler leaves. At the call that `trapHang` names the handler has no result and the run is stuck (R170, log 12). -/
def State.trapCall (s : State) (instr : Word) : Result :=
  if s.trapHang = some s.trapCalls then .fault .handlerNeverReturns
  else
    .next (s.runHandler (s.handlerAnswer instr).calls (s.handlerAnswer instr).signal)

end Sys2Proof.Machine
end

