-- ==== Sys2Proof/Machine/Toolkit.lean ====
section
/-!
DEFINITION. The bit-field toolkit (spec/40_engine.md R81 to R86): pure functions of a 16-bit word, "all
precondition-checked". A call outside its precondition answers Fatal(ContractViolation) (R86, R182).
-/

namespace Sys2Proof.Machine

/-- 2^width - 1 as a word, the low `width` bits set (R82, R84). -/
def lowMask (width : Nat) : Word := BitVec.ofNat 16 (2 ^ width - 1)

/-- R81: `get_bit(word, n)`, for n in [0,16). -/
def getBit (word : Word) (n : Nat) : Except FatalReason Bool :=
  if n < 16 then .ok (word.getLsbD n) else .error (.contractViolation .getBit)

/-- R82: `get_bits(word, n, width)`: the `width` bits from bit `n` up, zero-extended. The third condition is the spec's
(D14, log 16). -/
def getBits (word : Word) (n width : Nat) : Except FatalReason Word :=
  if n < 16 ∧ 1 ≤ width ∧ width ≤ 16 ∧ n + width ≤ 16 then .ok ((word >>> n) &&& lowMask width)
  else .error (.contractViolation .getBits)

/-- R83: `set_bit(word, n)`. The range is `get_bit`'s (D14, log 16). -/
def setBit (word : Word) (n : Nat) : Except FatalReason Word :=
  if n < 16 then .ok (word ||| (1#16 <<< n)) else .error (.contractViolation .setBit)

/-- R83: `clear_bit(word, n)`. The range is `get_bit`'s (D14, log 16). -/
def clearBit (word : Word) (n : Nat) : Except FatalReason Word :=
  if n < 16 then .ok (word &&& ~~~(1#16 <<< n)) else .error (.contractViolation .clearBit)

/-- R84: `sign_extend(value, width)`, for width in [1,16] (D14, log 16). If bit `width-1` is 1 the higher bits are
filled with 1 and the value is otherwise kept; if it is 0 the value is masked to `width` bits. -/
def signExtend (value : Word) (width : Nat) : Except FatalReason Word :=
  if 1 ≤ width ∧ width ≤ 16 then
    .ok (if value.getLsbD (width - 1) then value ||| ~~~(lowMask width) else value &&& lowMask width)
  else .error (.contractViolation .signExtend)

/-- R85: `is_negative(w)` tests bit 15. -/
def isNegative (w : Word) : Bool := w.getLsbD 15

/-- R85: `is_positive(w)` is the complement, so it is true of 0 (D15, log 16). The engine does not use it. -/
def isPositive (w : Word) : Bool := !w.getLsbD 15

end Sys2Proof.Machine
end

