-- ==== Sys2Proof/Machine/Flags.lean ====
section
/-!
DEFINITION. The condition code: the updater (spec/40_engine.md R87, R88), the branch condition (spec/42_control.md R120) and
the condition code as bits (spec/10_state.md R30).
-/

namespace Sys2Proof.Machine

/-- R87: "ZRO if 0, NEG if bit 15 is set, else POS." -/
def condOf (v : Word) : Cond :=
  if v = 0x0000 then .zro else if isNegative v then .neg else .pos

/-- R87: `setcc(v)`. -/
def State.setcc (s : State) (v : Word) : State := s.writeCc (condOf v)

/-- R88: the end of every instruction that defines a result register: the write of `R[DR]`, then `setcc(R[DR])` on the
register's new value. -/
def State.defineResult (s : State) (dr : RegId) (v : Word) : State :=
  let written := s.writeReg dr v
  written.setcc (written.readReg dr)

/-- R120: the branch condition. All three bits 0 is unconditional (C5). -/
def taken (n z p : Bool) (c : Cond) : Bool :=
  (n && c == .neg) || (z && c == .zro) || (p && c == .pos) || (!n && !z && !p)

/-- R30, D16 (log 21): CC as one-hot bits `n z p`. No rule depends on it. -/
def condBits : Cond → BitVec 3
  | .neg => 0b100
  | .zro => 0b010
  | .pos => 0b001

/-- R180, D12 (log 21): the number a model may give a fatal reason. No rule depends on it. -/
def causeNumber : FatalReason → Nat
  | .reservedOpcode _ => 1
  | .contractViolation _ => 2
  | .accessFault _ => 3

end Sys2Proof.Machine
end

