-- ==== Sys2Proof/Machine/Operands.lean ====
section
/-!
DEFINITION. The operand forms: sign-extended immediates and offsets (spec/30_encoding.md R65) and the addressing modes
(spec/43_load_store.md R140 to R142). Each goes through the checked `sign_extend` of the toolkit (R86).
-/

namespace Sys2Proof.Machine

/-- R65: `sext_5(instr[4:0])`, -16 to +15. -/
def sext5 (imm5 : BitVec 5) : Except FatalReason Word := signExtend (imm5.setWidth 16) 5

/-- R65: `sext_6(instr[5:0])`, -32 to +31. -/
def sext6 (off6 : BitVec 6) : Except FatalReason Word := signExtend (off6.setWidth 16) 6

/-- R65: `sext_9(instr[8:0])`, -256 to +255. -/
def sext9 (off9 : BitVec 9) : Except FatalReason Word := signExtend (off9.setWidth 16) 9

/-- R65: `sext_11(instr[10:0])`, -1024 to +1023. -/
def sext11 (off11 : BitVec 11) : Except FatalReason Word := signExtend (off11.setWidth 16) 11

/-- R140: `ea = PC + sext_9(instr[8:0])`, where PC is the fetch address plus 1. -/
def State.eaPcRel (s : State) (off9 : BitVec 9) : Except FatalReason Word := (sext9 off9).map (s.pc + ·)

/-- R141: `ea = R[instr[8:6]] + sext_6(instr[5:0])`. The base register is not modified (R150). -/
def State.eaBase (s : State) (baseR : RegId) (off6 : BitVec 6) : Except FatalReason Word :=
  (sext6 off6).map (s.readReg baseR + ·)

/-- R142: the pointer word read at the PC-relative address. -/
def State.eaIndirect (s : State) (off9 : BitVec 9) : Except FatalReason Word :=
  match s.eaPcRel off9 with
  | .ok ea => s.memRead ea
  | .error r => .error r

end Sys2Proof.Machine
end

