-- ==== Sys2Proof/Machine/Control.lean ====
section
/-!
DEFINITION. Control transfer: BR, JMP, JSRR and JSR (spec/42_control.md R120 to R125). `s.pc` is the fetch address plus 1.
-/

namespace Sys2Proof.Machine

/-- R121: BR. -/
def execBr (n z p : Bool) (off9 : BitVec 9) (s : State) : Result :=
  if taken n z p s.cc then s.orFatal (sext9 off9) fun off => .next (s.writePc (s.pc + off))
  else .next s

/-- R122: JMP. No register id is special. -/
def execJmp (baseR : RegId) (s : State) : Result :=
  .next (s.writePc (s.readReg baseR))

/-- R123: the link step, "before the target is computed". -/
def State.link (s : State) : State := s.writeReg linkReg s.pc

/-- R124: JSRR. The base is read after the write of R7 (R15, C6). -/
def execJsrr (baseR : RegId) (s : State) : Result :=
  .next (s.link.writePc (s.link.readReg baseR))

/-- R125: JSR. -/
def execJsr (off11 : BitVec 11) (s : State) : Result :=
  s.link.orFatal (sext11 off11) fun off => .next (s.link.writePc (s.link.pc + off))

end Sys2Proof.Machine
end

