-- ==== Sys2Proof/Machine/LoadStore.lean ====
section
/-!
DEFINITION. Loads, stores and address load: LD, LDI, LDR, LEA, ST, STI, STR (spec/43_load_store.md R143 to R149). Each does
its accesses in the order of R151: a faulting access comes before every write of the tick (R187).
-/

namespace Sys2Proof.Machine

/-- R143: LD. -/
def execLd (dr : RegId) (off9 : BitVec 9) (s : State) : Result :=
  s.orFatal (s.eaPcRel off9) fun ea =>
  s.orFatal (s.memRead ea) fun v =>
  .next (s.defineResult dr v)

/-- R144: LDI. The pointer read comes before the data read (R142). -/
def execLdi (dr : RegId) (off9 : BitVec 9) (s : State) : Result :=
  s.orFatal (s.eaIndirect off9) fun ptr =>
  s.orFatal (s.memRead ptr) fun v =>
  .next (s.defineResult dr v)

/-- R145: LDR. The address is computed from the old base. -/
def execLdr (dr baseR : RegId) (off6 : BitVec 6) (s : State) : Result :=
  s.orFatal (s.eaBase baseR off6) fun ea =>
  s.orFatal (s.memRead ea) fun v =>
  .next (s.defineResult dr v)

/-- R146: LEA. No memory access; it sets CC (C7). -/
def execLea (dr : RegId) (off9 : BitVec 9) (s : State) : Result :=
  s.orFatal (s.eaPcRel off9) fun ea =>
  .next (s.defineResult dr ea)

/-- R147: ST. -/
def execSt (sr : RegId) (off9 : BitVec 9) (s : State) : Result :=
  s.orFatal (s.eaPcRel off9) fun ea =>
  s.orFatal (s.memWrite ea (s.readReg sr)) .next

/-- R148: STI. The pointer is read before the store. -/
def execSti (sr : RegId) (off9 : BitVec 9) (s : State) : Result :=
  s.orFatal (s.eaIndirect off9) fun ptr =>
  s.orFatal (s.memWrite ptr (s.readReg sr)) .next

/-- R149: STR. -/
def execStr (sr baseR : RegId) (off6 : BitVec 6) (s : State) : Result :=
  s.orFatal (s.eaBase baseR off6) fun ea =>
  s.orFatal (s.memWrite ea (s.readReg sr)) .next

end Sys2Proof.Machine
end

