-- ==== Sys2Proof/Machine/Operate.lean ====
section
/-!
DEFINITION. The operate instructions ADD, AND and NOT (spec/41_operate.md R100 to R104).
-/

namespace Sys2Proof.Machine

/-- R100: ADD, register form. Both operands are read before the write. -/
def execAddReg (dr sr1 sr2 : RegId) (s : State) : Result :=
  .next (s.defineResult dr (s.readReg sr1 + s.readReg sr2))

/-- R101: ADD, immediate form. -/
def execAddImm (dr sr1 : RegId) (imm5 : BitVec 5) (s : State) : Result :=
  s.orFatal (sext5 imm5) fun op2 => .next (s.defineResult dr (s.readReg sr1 + op2))

/-- R102: AND, register form. -/
def execAndReg (dr sr1 sr2 : RegId) (s : State) : Result :=
  .next (s.defineResult dr (s.readReg sr1 &&& s.readReg sr2))

/-- R103: AND, immediate form. -/
def execAndImm (dr sr1 : RegId) (imm5 : BitVec 5) (s : State) : Result :=
  s.orFatal (sext5 imm5) fun op2 => .next (s.defineResult dr (s.readReg sr1 &&& op2))

/-- R104: NOT. -/
def execNot (dr sr : RegId) (s : State) : Result :=
  .next (s.defineResult dr (~~~(s.readReg sr)))

end Sys2Proof.Machine
end

