-- ==== Sys2Proof/Syntax.lean ====
section
/-!
DEFINITION. The instructions: one constructor for each of the 19 rows of spec/opcode_table.json (spec/30_encoding.md R72).

Every operand has the width of its field (R61, R64, R65), so no operand can be out of range. Bits that the source names no
field for (R69) are no operand.
-/

namespace Sys2Proof

/-- R72: the 19 forms. Immediates and offsets are the fields as encoded; the meanings sign-extend them (R65). -/
inductive Instr where
  /-- R100: `ADD DR, SR1, SR2`. -/
  | addReg (dr sr1 sr2 : RegId)
  /-- R101: `ADD DR, SR1, #imm5`. -/
  | addImm (dr sr1 : RegId) (imm5 : BitVec 5)
  /-- R102: `AND DR, SR1, SR2`. -/
  | andReg (dr sr1 sr2 : RegId)
  /-- R103: `AND DR, SR1, #imm5`. -/
  | andImm (dr sr1 : RegId) (imm5 : BitVec 5)
  /-- R104: `NOT DR, SR`. -/
  | not (dr sr : RegId)
  /-- R121: `BR` with its three condition bits. -/
  | br (n z p : Bool) (off9 : BitVec 9)
  /-- R122: `JMP BaseR`. -/
  | jmp (baseR : RegId)
  /-- R124: `JSRR BaseR`. -/
  | jsrr (baseR : RegId)
  /-- R125: `JSR`, PC-relative. -/
  | jsr (off11 : BitVec 11)
  /-- R143: `LD DR`, PC-relative. -/
  | ld (dr : RegId) (off9 : BitVec 9)
  /-- R144: `LDI DR`, indirect. -/
  | ldi (dr : RegId) (off9 : BitVec 9)
  /-- R145: `LDR DR, BaseR, #offset6`. -/
  | ldr (dr baseR : RegId) (off6 : BitVec 6)
  /-- R146: `LEA DR`, PC-relative. -/
  | lea (dr : RegId) (off9 : BitVec 9)
  /-- R147: `ST SR`, PC-relative. -/
  | st (sr : RegId) (off9 : BitVec 9)
  /-- R148: `STI SR`, indirect. -/
  | sti (sr : RegId) (off9 : BitVec 9)
  /-- R149: `STR SR, BaseR, #offset6`. -/
  | str (sr baseR : RegId) (off6 : BitVec 6)
  /-- R171: `TRAP`; the low 12 bits go to the handler undecoded, inside the raw word. -/
  | trap (payload : BitVec 12)
  /-- R172: the reserved opcode value 0x8. -/
  | rsv8
  /-- R172: the reserved opcode value 0xD. -/
  | rsv13
deriving DecidableEq, Repr

end Sys2Proof
end

