-- ==== Sys2Proof/Decode.lean ====
section
/-!
DEFINITION. The instruction decoder and the encoder (spec/30_encoding.md R60 to R72). Every instruction is one word.
The decoder reads its fields through the toolkit, as the engine does (R62, R64, R86); it is total on the 65536 words.
-/

namespace Sys2Proof

open Sys2Proof.Machine

/-- R9: the 16 opcode classes, 14 defined and 2 reserved. JSR and JSRR share one. -/
inductive Opcode where
  | br | add | ld | st | jsr | and | ldr | str | rsv8 | not | ldi | sti | jmp | rsv13 | lea | trap
deriving DecidableEq, Repr

/-- R63: the value of each opcode, OPCODE_OF of R9 (PRESUMED by the spec from the LC-3 family: D1, log 1). -/
def opcodeValue : Opcode → BitVec 4
  | .br => 0x0
  | .add => 0x1
  | .ld => 0x2
  | .st => 0x3
  | .jsr => 0x4
  | .and => 0x5
  | .ldr => 0x6
  | .str => 0x7
  | .rsv8 => 0x8
  | .not => 0x9
  | .ldi => 0xA
  | .sti => 0xB
  | .jmp => 0xC
  | .rsv13 => 0xD
  | .lea => 0xE
  | .trap => 0xF

/-- R63 read the other way, over the bits `[15]`, `[14]`, `[13]`, `[12]`. R90: the dispatch is exhaustive and has no
default arm. -/
def opcodeOf (op : BitVec 4) : Opcode :=
  match op.getLsbD 3, op.getLsbD 2, op.getLsbD 1, op.getLsbD 0 with
  | false, false, false, false => .br
  | false, false, false, true => .add
  | false, false, true, false => .ld
  | false, false, true, true => .st
  | false, true, false, false => .jsr
  | false, true, false, true => .and
  | false, true, true, false => .ldr
  | false, true, true, true => .str
  | true, false, false, false => .rsv8
  | true, false, false, true => .not
  | true, false, true, false => .ldi
  | true, false, true, true => .sti
  | true, true, false, false => .jmp
  | true, true, false, true => .rsv13
  | true, true, true, false => .lea
  | true, true, true, true => .trap

/-- A field of `width` bits from bit `n`, as `get_bits` reads it (R82), at the field's own width. -/
def fieldAt (instr : Word) (n width : Nat) : Except FatalReason (BitVec width) :=
  (getBits instr n width).map (BitVec.setWidth width)

/-- R62: "The decoder uses `get_bits(instr, 12, 4)`". -/
def opcodeField (instr : Word) : Except FatalReason (BitVec 4) := fieldAt instr 12 4

/-- R66: ADD and AND. `[5]` selects the second operand; both forms share DR and SR1. -/
def decodeOperate (instr : Word) (reg : RegId → RegId → RegId → Instr) (imm : RegId → RegId → BitVec 5 → Instr) :
    Except FatalReason Instr := do
  let dr ← fieldAt instr 9 3
  let sr1 ← fieldAt instr 6 3
  if ← getBit instr 5 then
    return imm dr sr1 (← fieldAt instr 0 5)
  else
    return reg dr sr1 (← fieldAt instr 0 3)

/-- R61, format PCREL: a register in `[11:9]` and PCoffset9 in `[8:0]`. -/
def decodePcRel (instr : Word) (form : RegId → BitVec 9 → Instr) : Except FatalReason Instr := do
  let r ← fieldAt instr 9 3
  return form r (← fieldAt instr 0 9)

/-- R61, format BASE: a register in `[11:9]`, BaseR in `[8:6]` and offset6 in `[5:0]`. -/
def decodeBase (instr : Word) (form : RegId → RegId → BitVec 6 → Instr) : Except FatalReason Instr := do
  let r ← fieldAt instr 9 3
  let base ← fieldAt instr 6 3
  return form r base (← fieldAt instr 0 6)

/-- R61, format NOT: DR in `[11:9]`, SR in `[8:6]`; `[5:0]` is not read (R69). -/
def decodeNot (instr : Word) : Except FatalReason Instr := do
  let dr ← fieldAt instr 9 3
  return .not dr (← fieldAt instr 6 3)

/-- R68: n, z and p are the bits `[11]`, `[10]` and `[9]`; PCoffset9 is `[8:0]`. -/
def decodeBr (instr : Word) : Except FatalReason Instr := do
  let n ← getBit instr 11
  let z ← getBit instr 10
  let p ← getBit instr 9
  return .br n z p (← fieldAt instr 0 9)

/-- R61, format JMP: BaseR in `[8:6]`; the other bits are not read (R69). -/
def decodeJmp (instr : Word) : Except FatalReason Instr := do
  return .jmp (← fieldAt instr 6 3)

/-- R67: `[11]` selects between JSR and JSRR. -/
def decodeJsr (instr : Word) : Except FatalReason Instr := do
  if ← getBit instr 11 then
    return .jsr (← fieldAt instr 0 11)
  else
    return .jsrr (← fieldAt instr 6 3)

/-- R171: "The engine decodes nothing beyond the opcode". The other 12 bits are carried as they stand, so that the raw word
can go to the handler (log 22); they are no field, and no toolkit call reads them (R86). -/
def decodeTrap (instr : Word) : Except FatalReason Instr :=
  .ok (.trap (instr.setWidth 12))

/-- R72, R90: the decoder. It answers an instruction for each of the 65536 words; the error is the toolkit's contract
violation, which no call made here can raise (R86). -/
def decode (instr : Word) : Except FatalReason Instr := do
  match opcodeOf (← opcodeField instr) with
  | .br => decodeBr instr
  | .add => decodeOperate instr .addReg .addImm
  | .ld => decodePcRel instr .ld
  | .st => decodePcRel instr .st
  | .jsr => decodeJsr instr
  | .and => decodeOperate instr .andReg .andImm
  | .ldr => decodeBase instr .ldr
  | .str => decodeBase instr .str
  | .rsv8 => .ok .rsv8
  | .not => decodeNot instr
  | .ldi => decodePcRel instr .ldi
  | .sti => decodePcRel instr .sti
  | .jmp => decodeJmp instr
  | .rsv13 => .ok .rsv13
  | .lea => decodePcRel instr .lea
  | .trap => decodeTrap instr

/-- R61, R63: the word of an instruction. Bits the source names no field for are written as 0, and as 111111 in NOT,
as an assembler writes them (R73, log 10). -/
def encode : Instr → Word
  | .addReg dr sr1 sr2 => opcodeValue .add ++ dr ++ sr1 ++ 0b000#3 ++ sr2
  | .addImm dr sr1 imm5 => opcodeValue .add ++ dr ++ sr1 ++ 0b1#1 ++ imm5
  | .andReg dr sr1 sr2 => opcodeValue .and ++ dr ++ sr1 ++ 0b000#3 ++ sr2
  | .andImm dr sr1 imm5 => opcodeValue .and ++ dr ++ sr1 ++ 0b1#1 ++ imm5
  | .not dr sr => opcodeValue .not ++ dr ++ sr ++ 0b111111#6
  | .br n z p off9 => opcodeValue .br ++ BitVec.ofBool n ++ BitVec.ofBool z ++ BitVec.ofBool p ++ off9
  | .jmp baseR => opcodeValue .jmp ++ 0b000#3 ++ baseR ++ 0b000000#6
  | .jsrr baseR => opcodeValue .jsr ++ 0b000#3 ++ baseR ++ 0b000000#6
  | .jsr off11 => opcodeValue .jsr ++ 0b1#1 ++ off11
  | .ld dr off9 => opcodeValue .ld ++ dr ++ off9
  | .ldi dr off9 => opcodeValue .ldi ++ dr ++ off9
  | .ldr dr baseR off6 => opcodeValue .ldr ++ dr ++ baseR ++ off6
  | .lea dr off9 => opcodeValue .lea ++ dr ++ off9
  | .st sr off9 => opcodeValue .st ++ sr ++ off9
  | .sti sr off9 => opcodeValue .sti ++ sr ++ off9
  | .str sr baseR off6 => opcodeValue .str ++ sr ++ baseR ++ off6
  | .trap payload => opcodeValue .trap ++ payload
  | .rsv8 => opcodeValue .rsv8 ++ 0#12
  | .rsv13 => opcodeValue .rsv13 ++ 0#12

/-- One row of spec/opcode_table.json: a word w is of the row when w AND mask = bits. -/
structure TableRow where
  mnemonic : String
  mask : Word
  bits : Word
deriving DecidableEq, Repr

/-- The row of spec/opcode_table.json an instruction stands for (R61, R63). -/
def tableRow : Instr → TableRow
  | .addReg _ _ _ => { mnemonic := "ADD", mask := 0xF020, bits := 0x1000 }
  | .addImm _ _ _ => { mnemonic := "ADD", mask := 0xF020, bits := 0x1020 }
  | .andReg _ _ _ => { mnemonic := "AND", mask := 0xF020, bits := 0x5000 }
  | .andImm _ _ _ => { mnemonic := "AND", mask := 0xF020, bits := 0x5020 }
  | .not _ _ => { mnemonic := "NOT", mask := 0xF000, bits := 0x9000 }
  | .br _ _ _ _ => { mnemonic := "BR", mask := 0xF000, bits := 0x0000 }
  | .jmp _ => { mnemonic := "JMP", mask := 0xF000, bits := 0xC000 }
  | .jsrr _ => { mnemonic := "JSRR", mask := 0xF800, bits := 0x4000 }
  | .jsr _ => { mnemonic := "JSR", mask := 0xF800, bits := 0x4800 }
  | .ld _ _ => { mnemonic := "LD", mask := 0xF000, bits := 0x2000 }
  | .ldi _ _ => { mnemonic := "LDI", mask := 0xF000, bits := 0xA000 }
  | .ldr _ _ _ => { mnemonic := "LDR", mask := 0xF000, bits := 0x6000 }
  | .lea _ _ => { mnemonic := "LEA", mask := 0xF000, bits := 0xE000 }
  | .st _ _ => { mnemonic := "ST", mask := 0xF000, bits := 0x3000 }
  | .sti _ _ => { mnemonic := "STI", mask := 0xF000, bits := 0xB000 }
  | .str _ _ _ => { mnemonic := "STR", mask := 0xF000, bits := 0x7000 }
  | .trap _ => { mnemonic := "TRAP", mask := 0xF000, bits := 0xF000 }
  | .rsv8 => { mnemonic := "RSV8", mask := 0xF000, bits := 0x8000 }
  | .rsv13 => { mnemonic := "RSV13", mask := 0xF000, bits := 0xD000 }

/-- R69: the bits the source names no field for, as a mask. "Any value there gives the same behaviour as 0". -/
def unusedBits : Instr → Word
  | .addReg _ _ _ => 0x0018
  | .andReg _ _ _ => 0x0018
  | .not _ _ => 0x003F
  | .jmp _ => 0x0E3F
  | .jsrr _ => 0x063F
  | .rsv8 => 0x0FFF
  | .rsv13 => 0x0FFF
  | .addImm _ _ _ => 0
  | .andImm _ _ _ => 0
  | .br _ _ _ _ => 0
  | .jsr _ => 0
  | .ld _ _ => 0
  | .ldi _ _ => 0
  | .ldr _ _ _ => 0
  | .lea _ _ => 0
  | .st _ _ => 0
  | .sti _ _ => 0
  | .str _ _ _ => 0
  | .trap _ => 0

/-- The instruction word that spec/opcode_table.json numbers as the low `nbits` bits of `w`: one word, bit 0 its least
significant (R11, R60). -/
def tableWord (nbits w : Nat) : Word := BitVec.ofNat 16 (w % 2 ^ nbits)

/-- What the decoder reads from an instruction whose bits are `w`, as the opcode table numbers them. -/
def decodeTableWord (nbits w : Nat) : Option Instr :=
  match decode (tableWord nbits w) with
  | .ok i => some i
  | .error _ => none

end Sys2Proof
end

