-- ==== Sys2Proof/Machine/Trap.lean ====
section
/-!
DEFINITION. TRAP and the two reserved opcodes (spec/44_trap_reserved.md R171, R172).
-/

namespace Sys2Proof.Machine

/-- R171: the raw instruction word of a TRAP, opcode and payload (log 22). -/
def trapWord (payload : BitVec 12) : Word := opcodeValue .trap ++ payload

/-- R171: TRAP. The handler gets the raw word; "engine performs no further mutation" (C8). -/
def execTrap (payload : BitVec 12) (s : State) : Result :=
  s.trapCall (trapWord payload)

/-- R172: the reserved opcode value 0x8: `raise Fatal(ReservedOpcode(instr[15:12]))`. -/
def execRsv8 (s : State) : Result :=
  .next (s.raiseFatal (.reservedOpcode (opcodeValue .rsv8)))

/-- R172: the reserved opcode value 0xD: `raise Fatal(ReservedOpcode(instr[15:12]))`. -/
def execRsv13 (s : State) : Result :=
  .next (s.raiseFatal (.reservedOpcode (opcodeValue .rsv13)))

end Sys2Proof.Machine
end

