-- ==== Sys2Proof/Machine/Dispatch.lean ====
section
/-! DEFINITION. The dispatch: one arm for each constructor of `Instr` (spec/40_engine.md R90, R91). -/

namespace Sys2Proof.Machine

def exec (i : Instr) (s : State) : Host.Outcome State Fault Refusal :=
  match i with
  -- operate (41_operate.md)
  | .addReg dr sr1 sr2 => Sys2Proof.Machine.execAddReg dr sr1 sr2 s
  | .addImm dr sr1 imm5 => Sys2Proof.Machine.execAddImm dr sr1 imm5 s
  | .andReg dr sr1 sr2 => Sys2Proof.Machine.execAndReg dr sr1 sr2 s
  | .andImm dr sr1 imm5 => Sys2Proof.Machine.execAndImm dr sr1 imm5 s
  | .not dr sr => Sys2Proof.Machine.execNot dr sr s
  -- control transfer (42_control.md)
  | .br n z p off9 => Sys2Proof.Machine.execBr n z p off9 s
  | .jmp baseR => Sys2Proof.Machine.execJmp baseR s
  | .jsrr baseR => Sys2Proof.Machine.execJsrr baseR s
  | .jsr off11 => Sys2Proof.Machine.execJsr off11 s
  -- loads and stores (43_load_store.md)
  | .ld dr off9 => Sys2Proof.Machine.execLd dr off9 s
  | .ldi dr off9 => Sys2Proof.Machine.execLdi dr off9 s
  | .ldr dr baseR off6 => Sys2Proof.Machine.execLdr dr baseR off6 s
  | .lea dr off9 => Sys2Proof.Machine.execLea dr off9 s
  | .st sr off9 => Sys2Proof.Machine.execSt sr off9 s
  | .sti sr off9 => Sys2Proof.Machine.execSti sr off9 s
  | .str sr baseR off6 => Sys2Proof.Machine.execStr sr baseR off6 s
  -- TRAP and the reserved opcodes (44_trap_reserved.md)
  | .trap payload => Sys2Proof.Machine.execTrap payload s
  | .rsv8 => Sys2Proof.Machine.execRsv8 s
  | .rsv13 => Sys2Proof.Machine.execRsv13 s

end Sys2Proof.Machine
end

