-- ==== Sys2Proof/Machine/Fetch.lean ====
section
/-!
DEFINITION. Steps 1 and 2 of the tick: fetch, increment and decode (spec/40_engine.md R89, R90), and placing a word where the
next tick fetches.
-/

namespace Sys2Proof.Machine

/-- R89, R90, R93: the word at PC is read, PC is incremented, the word is decoded, and `body` runs in the incremented
state. A fetch out of range is fatal before the increment (R187); a contract violation of the decoder, which cannot
happen (R86), would be fatal after it. -/
def State.tick (s : State) (body : Instr → State → Result) : Result :=
  s.orFatal (s.memRead s.pc) fun instr =>
  s.incPc.orFatal (decode instr) fun i =>
  body i s.incPc

/-- The word stored in the cell that the next tick fetches from, in a machine that runs (R25, R31). Nothing else changes.
It stands for the launcher's load of a program (R204, R208; log 18). -/
def State.placeAtPc (s : State) (w : Word) : State :=
  { s with mem := { s.mem with cells := writeCell s.pc.toNat w s.mem.cells }, status := .running }

end Sys2Proof.Machine
end

