-- ==== Sys2Proof/Machine/Step.lean ====
section
/-!
DEFINITION. The step function: one tick, which runs only in status Running (spec/10_state.md R31, spec/40_engine.md R93).
-/

namespace Sys2Proof.Machine

/-- R93, R95: one tick of a running machine. Stopped and Fatal are never left (R31), so a step of an ended run answers the
end by name (log 14). -/
def step (s : State) : Host.Outcome State Fault Refusal :=
  match s.status with
  | .running => s.tick exec
  | .stopped => .fault .runStopped
  | .fatal r => .fault (.runFatal r)

/-- The instruction word that the opcode table numbers as the low `nbits` bits of `w`, stored where the next step
fetches. -/
def State.withFetchWord (s : State) (nbits w : Nat) : State := s.placeAtPc (tableWord nbits w)

end Sys2Proof.Machine
end

