-- ==== Sys2Proof/Machine/Launch.lean ====
section
/-!
DEFINITION. Launching a run: the launch parameters, and loading the program image (spec/00_scope.md R10,
spec/70_reset_and_hazards.md R200 to R206).
-/

namespace Sys2Proof.Machine

/-- R10: the values a launch gives, "because no source fixes them". -/
structure LaunchParams where
  /-- R200: INIT_R. -/
  initR : Vector Word 8
  /-- R201: INIT_CC. -/
  initCc : Cond
  /-- R202: ENTRY; by default (none) the image's load address. -/
  entry : Option Word
  /-- R205, R8: INIT_MEM, with MEM_WORDS as its size. R8's range, 1 to 65536, is the caller's to keep (log 7). -/
  initMem : Memory
  /-- The model's own (log 12): the TRAP call, if any, at which the handler never returns. -/
  trapHang : Option Nat
deriving DecidableEq, Repr

/-- R204: `MEM[(L + i)] <- w_i`, in order. -/
def loadWords (addr : Nat) (cells : List (Nat × Word)) : List Word → List (Nat × Word)
  | [] => cells
  | w :: rest => loadWords (addr + 1) (writeCell addr w cells) rest

/-- R200 to R206: the state of a run before its first tick, or the refusal of a malformed image (R204).

DESIGN CHOICE (log 7): a MEM_WORDS outside 1..65536, of which R8 gives the range and no behaviour, is not checked here, and
neither is the form of INIT_MEM (log 2). Above 65536 the range check never fires; at 0 every access faults, and the one
image accepted is `L = 0`, `n = 0`. `Memory.wf` is the premise that rules such launches out. -/
def launch (p : LaunchParams) (image : List Byte) : Except LaunchRefusal State :=
  match checkImage p.initMem.words image with
  | .error e => .error e
  | .ok (load, program) =>
    .ok
      { regs := p.initR
        pc := p.entry.getD load
        cc := p.initCc
        mem := { p.initMem with cells := loadWords load.toNat p.initMem.cells program }
        status := .running
        trapCalls := 0
        trapHang := p.trapHang }

end Sys2Proof.Machine
end

