-- ==== Sys2Proof/Safety.lean ====
section
/-!
DEFINITION. What counts as a safe state of a run (spec/60_exceptions.md R196), and the words the statements are
written in: what an instruction may write (spec/10_state.md R22, R29), reads (R23), and what a step left unchanged.
-/

namespace Sys2Proof.Machine

/-- R196: a fatal end "is never a successful end". A safe run never comes to such a state. -/
def State.safe (s : State) : Prop := ∀ r, s.status ≠ .fatal r

/-- R182: the fatal reason is a contract violation of a toolkit primitive. -/
def FatalReason.isContractViolation : FatalReason → Bool
  | .contractViolation _ => true
  | .reservedOpcode _ => false
  | .accessFault _ => false

/-- R183: the fatal reason is an access fault. -/
def FatalReason.isAccessFault : FatalReason → Bool
  | .accessFault _ => true
  | .reservedOpcode _ => false
  | .contractViolation _ => false

/-- R22: the register an instruction's engine writes. Under TRAP the engine writes none; the handler may write any. -/
def destination : Instr → Option RegId
  | .addReg dr _ _ => some dr
  | .addImm dr _ _ => some dr
  | .andReg dr _ _ => some dr
  | .andImm dr _ _ => some dr
  | .not dr _ => some dr
  | .br _ _ _ _ => none
  | .jmp _ => none
  | .jsrr _ => some linkReg
  | .jsr _ => some linkReg
  | .ld dr _ => some dr
  | .ldi dr _ => some dr
  | .ldr dr _ _ => some dr
  | .lea dr _ => some dr
  | .st _ _ => none
  | .sti _ _ => none
  | .str _ _ _ => none
  | .trap _ => none
  | .rsv8 => none
  | .rsv13 => none

/-- R23: the registers an instruction's engine reads. -/
def sources : Instr → List RegId
  | .addReg _ sr1 sr2 => [sr1, sr2]
  | .addImm _ sr1 _ => [sr1]
  | .andReg _ sr1 sr2 => [sr1, sr2]
  | .andImm _ sr1 _ => [sr1]
  | .not _ sr => [sr]
  | .br _ _ _ _ => []
  | .jmp baseR => [baseR]
  | .jsrr baseR => [baseR]
  | .jsr _ => []
  | .ld _ _ => []
  | .ldi _ _ => []
  | .ldr _ baseR _ => [baseR]
  | .lea _ _ => []
  | .st sr _ => [sr]
  | .sti sr _ => [sr]
  | .str sr baseR _ => [sr, baseR]
  | .trap _ => []
  | .rsv8 => []
  | .rsv13 => []

/-- R29, R88: the seven instructions (nine forms) that update CC. -/
def updatesCc : Instr → Bool
  | .addReg _ _ _ => true
  | .addImm _ _ _ => true
  | .andReg _ _ _ => true
  | .andImm _ _ _ => true
  | .not _ _ => true
  | .ld _ _ => true
  | .ldi _ _ => true
  | .ldr _ _ _ => true
  | .lea _ _ => true
  | .br _ _ _ _ => false
  | .jmp _ => false
  | .jsrr _ => false
  | .jsr _ => false
  | .st _ _ => false
  | .sti _ _ => false
  | .str _ _ _ => false
  | .trap _ => false
  | .rsv8 => false
  | .rsv13 => false

/-- R41: the instructions that write memory. -/
def writesMemory : Instr → Bool
  | .st _ _ => true
  | .sti _ _ => true
  | .str _ _ _ => true
  | .addReg _ _ _ => false
  | .addImm _ _ _ => false
  | .andReg _ _ _ => false
  | .andImm _ _ _ => false
  | .not _ _ => false
  | .br _ _ _ _ => false
  | .jmp _ => false
  | .jsrr _ => false
  | .jsr _ => false
  | .ld _ _ => false
  | .ldi _ _ => false
  | .ldr _ _ _ => false
  | .lea _ _ => false
  | .trap _ => false
  | .rsv8 => false
  | .rsv13 => false

/-- R87 read as signed numbers: the condition code is the sign class of the value. -/
def ccReflects (c : Cond) (v : Word) : Prop :=
  (c = .zro ↔ v = 0) ∧ (c = .neg ↔ v.toInt < 0) ∧ (c = .pos ↔ 0 < v.toInt)

/-- Every register but `d` reads as before. -/
def regsKept (d : Option RegId) (s t : State) : Prop := ∀ r, d ≠ some r → t.readReg r = s.readReg r

/-- Every cell but the one at `d` reads as before. -/
def cellsKept (d : Option Word) (s t : State) : Prop := ∀ a, d ≠ some a → t.memRead a = s.memRead a

/-- What no instruction but TRAP and no fatal event touches: the status, the size of memory, and the model's own fields. -/
def runKept (s t : State) : Prop :=
  t.status = s.status ∧ t.mem.words = s.mem.words ∧ t.trapCalls = s.trapCalls ∧ t.trapHang = s.trapHang

/-- R88: the effect of an instruction that defines a result register, with its frame. -/
def definesResult (dr : RegId) (v : Word) (s t : State) : Prop :=
  t.readReg dr = v ∧ ccReflects t.cc v ∧ regsKept (some dr) s t ∧ cellsKept none s t ∧ t.pc = s.pc ∧ runKept s t

/-- The effect of a control transfer that writes no register, with its frame. -/
def transfersTo (target : Word) (s t : State) : Prop :=
  t.pc = target ∧ t.cc = s.cc ∧ regsKept none s t ∧ cellsKept none s t ∧ runKept s t

/-- R123: the effect of a call, with its frame. -/
def callsTo (target : Word) (s t : State) : Prop :=
  t.readReg linkReg = s.pc ∧ t.pc = target ∧ t.cc = s.cc ∧ regsKept (some linkReg) s t ∧ cellsKept none s t ∧
    runKept s t

/-- The effect of a store of `v` at `addr`, with its frame. -/
def storesAt (addr v : Word) (s t : State) : Prop :=
  t.memRead addr = .ok v ∧ cellsKept (some addr) s t ∧ regsKept none s t ∧ t.pc = s.pc ∧ t.cc = s.cc ∧ runKept s t

/-- The address at which an accessor call of the handler reaches memory, if it does (R43). -/
def callAddress : AccessorCall → Option Word
  | .regWrite _ _ => none
  | .pcWrite _ => none
  | .ccWrite _ => none
  | .memRead addr => some addr
  | .memWrite addr _ => some addr

/-- The effect of one accessor call of the handler, with its frame. -/
def callLeaves (c : AccessorCall) (s t : State) : Prop :=
  match c with
  | .regWrite id v =>
    t.readReg id = v ∧ regsKept (some id) s t ∧ cellsKept none s t ∧ t.pc = s.pc ∧ t.cc = s.cc ∧ runKept s t
  | .pcWrite v => transfersTo v s t
  | .ccWrite x => t.cc = x ∧ regsKept none s t ∧ cellsKept none s t ∧ t.pc = s.pc ∧ runKept s t
  | .memRead _ => t = s
  | .memWrite addr v => storesAt addr v s t

/-- `u` is reached from `s` by `n` steps, and none of them changes what the cell at `a` reads as. -/
def ticksKeeping (a : Word) : Nat → State → State → Prop
  | 0, s, u => u = s
  | n + 1, s, u => ∃ t, step s = .next t ∧ t.memRead a = s.memRead a ∧ ticksKeeping a n t u

end Sys2Proof.Machine
end

