-- ==== Sys2Proof/Certificates/Slice0/Obligations.lean ====
section
/-!
DEFINITION. The statements for the provers. Each is about the machine, for every state and operand its hypotheses admit; none is
about a program. The words used (`definesResult`, `regsKept`, …) are Sys2Proof/Safety.lean's.

Wherever a statement names an opcode's bits, it rests on R63's map, which the spec marks as its own decision (D1, log 1).
-/

open Sys2Proof Sys2Proof.Machine

/-! ## The bit-field toolkit and the condition-code updater -/

/-- R81: `get_bit` is the bit inside [0,16) and a contract violation outside. -/
def Obligations.GetBitSelectsOneBit : Prop :=
  ∀ (w : Word) (n : Nat),
    (n < 16 → getBit w n = .ok (w.getLsbD n)) ∧ (16 ≤ n → getBit w n = .error (.contractViolation .getBit))

/-- R82: the result is the field as a number, `(word >> n) AND (2^width - 1)`, read here as a quotient and a remainder.
The condition `n + width <= 16` is the spec's own (D14, log 16). -/
def Obligations.GetBitsReadsTheField : Prop :=
  ∀ (w : Word) (n width : Nat), n < 16 → 1 ≤ width → width ≤ 16 → n + width ≤ 16 →
    ∃ f, getBits w n width = .ok f ∧ f.toNat = w.toNat / 2 ^ n % 2 ^ width

/-- R82's law (source §8): a value placed at a position of any word is recovered from it. -/
def Obligations.GetBitsRecoversAPlacedField : Prop :=
  ∀ (w v : Word) (n width : Nat), 1 ≤ width → n + width ≤ 16 → v.toNat < 2 ^ width →
    getBits ((w &&& ~~~(lowMask width <<< n)) ||| (v <<< n)) n width = .ok v

/-- R83: `set_bit` and `clear_bit` change the one bit and no other. Their range is the spec's own (D14, log 16). -/
def Obligations.SetAndClearBitChangeOneBit : Prop :=
  ∀ (w : Word) (n : Nat), n < 16 →
    (∃ v, setBit w n = .ok v ∧ ∀ m, m < 16 → v.getLsbD m = if m = n then true else w.getLsbD m) ∧
    (∃ v, clearBit w n = .ok v ∧ ∀ m, m < 16 → v.getLsbD m = if m = n then false else w.getLsbD m)

/-- R84, for every 16-bit value: the result read as signed is the two's-complement value of the low `width` bits, whatever bits
the value has above them ("otherwise mask to exactly `width` bits"). For a value below `2^width` this is the law of source
§8. The precondition is the spec's own (D14, log 16). -/
def Obligations.SignExtendGivesTheSignedValue : Prop :=
  ∀ (value : Word) (width : Nat), 1 ≤ width → width ≤ 16 →
    ∃ v, signExtend value width = .ok v ∧
      v.toInt = if value.toNat % 2 ^ width < 2 ^ (width - 1) then ((value.toNat % 2 ^ width : Nat) : Int)
        else ((value.toNat % 2 ^ width : Nat) : Int) - 2 ^ width

/-- R86, R182: each of the five primitives that have a precondition answers its own contract violation outside it, and a value
inside it. The ranges of all but `get_bit` rest on the spec's own decision (D14, log 16). -/
def Obligations.ToolkitFailsLoudlyOutsideItsPreconditions : Prop :=
  ∀ (w : Word) (n width : Nat),
    (16 ≤ n → getBit w n = .error (.contractViolation .getBit) ∧
      setBit w n = .error (.contractViolation .setBit) ∧
      clearBit w n = .error (.contractViolation .clearBit)) ∧
    ((16 ≤ n ∨ width = 0 ∨ 16 < n + width) → getBits w n width = .error (.contractViolation .getBits)) ∧
    ((width = 0 ∨ 16 < width) → signExtend w width = .error (.contractViolation .signExtend)) ∧
    (n < 16 → (∃ b, getBit w n = .ok b) ∧ (∃ v, setBit w n = .ok v) ∧ (∃ v, clearBit w n = .ok v)) ∧
    (n < 16 → 1 ≤ width → n + width ≤ 16 → ∃ f, getBits w n width = .ok f) ∧
    (1 ≤ width → width ≤ 16 → ∃ v, signExtend w width = .ok v)

/-- R87: `setcc(v)` classifies the value and writes nothing but CC. -/
def Obligations.SetccClassifiesTheValue : Prop :=
  ∀ (s : State) (v : Word),
    (v.toNat = 0 → (s.setcc v).cc = .zro) ∧
    (0x8000 ≤ v.toNat → (s.setcc v).cc = .neg) ∧
    (1 ≤ v.toNat → v.toNat ≤ 0x7FFF → (s.setcc v).cc = .pos) ∧
    regsKept none s (s.setcc v) ∧ cellsKept none s (s.setcc v) ∧ (s.setcc v).pc = s.pc ∧ runKept s (s.setcc v)

/-! ## The decoder and the encoder -/

/-- R72: the decoder is total, and which of the 19 forms a word decodes to depends on `[15:12]` alone, but for `[5]` under
ADD and AND and `[11]` under JSR/JSRR. -/
def Obligations.DecoderIsTotalOnAllWords : Prop :=
  (∀ w : Word, ∃ i, decode w = .ok i) ∧
  (∀ (w w' : Word) (i i' : Instr), decode w = .ok i → decode w' = .ok i' →
    w.extractLsb' 12 4 = w'.extractLsb' 12 4 →
    (opcodeOf (w.extractLsb' 12 4) = .add ∨ opcodeOf (w.extractLsb' 12 4) = .and → w.getLsbD 5 = w'.getLsbD 5) →
    (opcodeOf (w.extractLsb' 12 4) = .jsr → w.getLsbD 11 = w'.getLsbD 11) →
    tableRow i = tableRow i')

/-- R61, R63 and spec/opcode_table.json: a word decodes to an instruction of the one table row whose fixed bits it has.
The opcode values are D1's (log 1). -/
def Obligations.EveryWordLiesInExactlyOneTableRow : Prop :=
  ∀ (w : Word) (i : Instr), decode w = .ok i →
    w &&& (tableRow i).mask = (tableRow i).bits ∧
    ∀ j : Instr, w &&& (tableRow j).mask = (tableRow j).bits → tableRow j = tableRow i

/-- R64, R68: the register operands and the branch bits of a decoded instruction are the bits the spec names. -/
def Obligations.DecodedRegisterFieldsAreTheSpecsBits : Prop :=
  ∀ (w : Word) (i : Instr), decode w = .ok i →
    match i with
    | .addReg dr sr1 sr2 => dr = w.extractLsb' 9 3 ∧ sr1 = w.extractLsb' 6 3 ∧ sr2 = w.extractLsb' 0 3
    | .addImm dr sr1 _ => dr = w.extractLsb' 9 3 ∧ sr1 = w.extractLsb' 6 3
    | .andReg dr sr1 sr2 => dr = w.extractLsb' 9 3 ∧ sr1 = w.extractLsb' 6 3 ∧ sr2 = w.extractLsb' 0 3
    | .andImm dr sr1 _ => dr = w.extractLsb' 9 3 ∧ sr1 = w.extractLsb' 6 3
    | .not dr sr => dr = w.extractLsb' 9 3 ∧ sr = w.extractLsb' 6 3
    | .br n z p _ => n = w.getLsbD 11 ∧ z = w.getLsbD 10 ∧ p = w.getLsbD 9
    | .jmp baseR => baseR = w.extractLsb' 6 3
    | .jsrr baseR => baseR = w.extractLsb' 6 3
    | .jsr _ => True
    | .ld dr _ => dr = w.extractLsb' 9 3
    | .ldi dr _ => dr = w.extractLsb' 9 3
    | .ldr dr baseR _ => dr = w.extractLsb' 9 3 ∧ baseR = w.extractLsb' 6 3
    | .lea dr _ => dr = w.extractLsb' 9 3
    | .st sr _ => sr = w.extractLsb' 9 3
    | .sti sr _ => sr = w.extractLsb' 9 3
    | .str sr baseR _ => sr = w.extractLsb' 9 3 ∧ baseR = w.extractLsb' 6 3
    | .trap payload => payload = w.extractLsb' 0 12
    | .rsv8 => True
    | .rsv13 => True

/-- R65: each immediate or offset is the field the spec names, and its value is the field read as signed, in the range the
rule gives: sign-extended, not scaled, shifted or zero-extended. -/
def Obligations.ImmediatesAreSignExtendedFields : Prop :=
  (∀ (w : Word) (i : Instr), decode w = .ok i →
    match i with
    | .addImm _ _ imm5 => imm5 = w.extractLsb' 0 5
    | .andImm _ _ imm5 => imm5 = w.extractLsb' 0 5
    | .br _ _ _ off9 => off9 = w.extractLsb' 0 9
    | .jsr off11 => off11 = w.extractLsb' 0 11
    | .ld _ off9 => off9 = w.extractLsb' 0 9
    | .ldi _ off9 => off9 = w.extractLsb' 0 9
    | .ldr _ _ off6 => off6 = w.extractLsb' 0 6
    | .lea _ off9 => off9 = w.extractLsb' 0 9
    | .st _ off9 => off9 = w.extractLsb' 0 9
    | .sti _ off9 => off9 = w.extractLsb' 0 9
    | .str _ _ off6 => off6 = w.extractLsb' 0 6
    | .addReg _ _ _ => True
    | .andReg _ _ _ => True
    | .not _ _ => True
    | .jmp _ => True
    | .jsrr _ => True
    | .trap _ => True
    | .rsv8 => True
    | .rsv13 => True) ∧
  (∀ f : BitVec 5, ∃ v, sext5 f = .ok v ∧ v.toInt = f.toInt ∧ -16 ≤ v.toInt ∧ v.toInt ≤ 15) ∧
  (∀ f : BitVec 6, ∃ v, sext6 f = .ok v ∧ v.toInt = f.toInt ∧ -32 ≤ v.toInt ∧ v.toInt ≤ 31) ∧
  (∀ f : BitVec 9, ∃ v, sext9 f = .ok v ∧ v.toInt = f.toInt ∧ -256 ≤ v.toInt ∧ v.toInt ≤ 255) ∧
  (∀ f : BitVec 11, ∃ v, sext11 f = .ok v ∧ v.toInt = f.toInt ∧ -1024 ≤ v.toInt ∧ v.toInt ≤ 1023)

/-- R69: "Any value there gives the same behaviour as 0": words that differ only in bits the source names no field for
decode alike. That they are ignored is the spec's own decision (D10, log 10). -/
def Obligations.UnusedBitsAreIgnored : Prop :=
  ∀ (w w' : Word) (i : Instr), decode w = .ok i →
    w' &&& ~~~(unusedBits i) = w &&& ~~~(unusedBits i) → decode w' = .ok i

/-- R61, R63: every instruction, with every operand at every value its field admits, is decoded from its encoding. -/
def Obligations.DecodeReadsBackEveryEncoding : Prop :=
  ∀ i : Instr, decode (encode i) = .ok i

/-- R69: every word is the encoding of the instruction it decodes to, but for the bits the source names no field for. -/
def Obligations.EncodeReadsBackEveryDecodedWord : Prop :=
  ∀ (w : Word) (i : Instr), decode w = .ok i →
    encode i &&& ~~~(unusedBits i) = w &&& ~~~(unusedBits i)

/-- R70: the reserved words are `0x8000..0x8FFF` and `0xD000..0xDFFF`, under R63's map (D1, log 1). -/
def Obligations.ReservedWordsAreTwoRanges : Prop :=
  ∀ w : Word,
    (decode w = .ok .rsv8 ↔ 0x8000 ≤ w.toNat ∧ w.toNat ≤ 0x8FFF) ∧
    (decode w = .ok .rsv13 ↔ 0xD000 ≤ w.toNat ∧ w.toNat ≤ 0xDFFF)

/-- The words written out in 95_test_vectors.md, one or more of each family, decode to the instructions they stand for. -/
def Obligations.WrittenOutWordsDecode : Prop :=
  decode 0x1642 = .ok (.addReg 3 1 2) ∧ decode 0x12BF = .ok (.addImm 1 2 0b11111) ∧
  decode 0x169B = .ok (.addReg 3 2 3) ∧ decode 0x5060 = .ok (.andImm 0 1 0) ∧ decode 0x92BF = .ok (.not 1 2) ∧
  decode 0x0005 = .ok (.br false false false 5) ∧ decode 0xC1C0 = .ok (.jmp 7) ∧ decode 0x41C0 = .ok (.jsrr 7) ∧
  decode 0x4805 = .ok (.jsr 5) ∧ decode 0x2202 = .ok (.ld 1 2) ∧ decode 0xA404 = .ok (.ldi 2 4) ∧
  decode 0x68BF = .ok (.ldr 4 2 0b111111) ∧ decode 0xE1FE = .ok (.lea 0 0x1FE) ∧ decode 0x3601 = .ok (.st 3 1) ∧
  decode 0xB202 = .ok (.sti 1 2) ∧ decode 0x7B83 = .ok (.str 5 6 3) ∧ decode 0xF025 = .ok (.trap 0x025) ∧
  decode 0x8ABC = .ok .rsv8 ∧ decode 0xD000 = .ok .rsv13

/-! ## The operate instructions -/

/-- R100: ADD, register form: its words, its result, its flags and its frame. -/
def Obligations.AddRegisterForm : Prop :=
  ∀ (dr sr1 sr2 : RegId) (unused : BitVec 2) (s : State),
    decode (0b0001#4 ++ dr ++ sr1 ++ 0b0#1 ++ unused ++ sr2) = .ok (.addReg dr sr1 sr2) ∧
    ∃ t, exec (.addReg dr sr1 sr2) s = .next t ∧ definesResult dr (s.readReg sr1 + s.readReg sr2) s t

/-- R101: ADD, immediate form. -/
def Obligations.AddImmediateForm : Prop :=
  ∀ (dr sr1 : RegId) (imm5 : BitVec 5) (s : State),
    decode (0b0001#4 ++ dr ++ sr1 ++ 0b1#1 ++ imm5) = .ok (.addImm dr sr1 imm5) ∧
    ∃ t, exec (.addImm dr sr1 imm5) s = .next t ∧ definesResult dr (s.readReg sr1 + imm5.signExtend 16) s t

/-- R102: AND, register form. -/
def Obligations.AndRegisterForm : Prop :=
  ∀ (dr sr1 sr2 : RegId) (unused : BitVec 2) (s : State),
    decode (0b0101#4 ++ dr ++ sr1 ++ 0b0#1 ++ unused ++ sr2) = .ok (.andReg dr sr1 sr2) ∧
    ∃ t, exec (.andReg dr sr1 sr2) s = .next t ∧ definesResult dr (s.readReg sr1 &&& s.readReg sr2) s t

/-- R103: AND, immediate form. -/
def Obligations.AndImmediateForm : Prop :=
  ∀ (dr sr1 : RegId) (imm5 : BitVec 5) (s : State),
    decode (0b0101#4 ++ dr ++ sr1 ++ 0b1#1 ++ imm5) = .ok (.andImm dr sr1 imm5) ∧
    ∃ t, exec (.andImm dr sr1 imm5) s = .next t ∧ definesResult dr (s.readReg sr1 &&& imm5.signExtend 16) s t

/-- R104: NOT. -/
def Obligations.NotComplementsTheRegister : Prop :=
  ∀ (dr sr : RegId) (unused : BitVec 6) (s : State),
    decode (0b1001#4 ++ dr ++ sr ++ unused) = .ok (.not dr sr) ∧
    ∃ t, exec (.not dr sr) s = .next t ∧ definesResult dr (~~~(s.readReg sr)) s t

/-- R105: "ADD computes `(op1 + op2) mod 2^16`", and "the same bits are the correct result" for unsigned and for
two's-complement operands: both forms, the second operand being SR2's value or sext_5(imm5). -/
def Obligations.AddIsOneSumForBothSigns : Prop :=
  ∀ (dr sr1 : RegId) (s t : State),
    (∀ sr2 : RegId, exec (.addReg dr sr1 sr2) s = .next t →
      (t.readReg dr).toNat = ((s.readReg sr1).toNat + (s.readReg sr2).toNat) % 65536 ∧
      (t.readReg dr).toInt = ((s.readReg sr1).toInt + (s.readReg sr2).toInt).bmod 65536) ∧
    (∀ (imm5 : BitVec 5) (op2 : Word), sext5 imm5 = .ok op2 → exec (.addImm dr sr1 imm5) s = .next t →
      (t.readReg dr).toNat = ((s.readReg sr1).toNat + op2.toNat) % 65536 ∧
      (t.readReg dr).toInt = ((s.readReg sr1).toInt + imm5.toInt).bmod 65536)

/-- R105: "Subtraction is done in software as `a + NOT(b) + 1`": three instructions, where
the destination is not the minuend. -/
def Obligations.SubtractionInThreeInstructions : Prop :=
  ∀ (dr a b : RegId) (s : State), dr ≠ a →
    ∃ t u v, exec (.not dr b) s = .next t ∧ exec (.addImm dr dr 1) t = .next u ∧ exec (.addReg dr a dr) u = .next v ∧
      definesResult dr (s.readReg a - s.readReg b) s v

/-! ## Control transfer -/

/-- R120: the whole condition. -/
def Obligations.BranchCondition : Prop :=
  ∀ (n z p : Bool) (c : Cond),
    taken n z p c = true ↔
      (n = true ∧ c = .neg) ∨ (z = true ∧ c = .zro) ∨ (p = true ∧ c = .pos) ∨ (n = false ∧ z = false ∧ p = false)

/-- R121: BR moves PC by the signed offset if the condition holds, and changes nothing if not. -/
def Obligations.BranchTakenOrNot : Prop :=
  ∀ (n z p : Bool) (off9 : BitVec 9) (s : State),
    decode (0b0000#4 ++ BitVec.ofBool n ++ BitVec.ofBool z ++ BitVec.ofBool p ++ off9) = .ok (.br n z p off9) ∧
    ∃ t, exec (.br n z p off9) s = .next t ∧
      transfersTo (if taken n z p s.cc then s.pc + off9.signExtend 16 else s.pc) s t

/-- R122: JMP, for every register alike. -/
def Obligations.JumpThroughRegister : Prop :=
  ∀ (high : BitVec 3) (baseR : RegId) (low : BitVec 6) (s : State),
    decode (0b1100#4 ++ high ++ baseR ++ low) = .ok (.jmp baseR) ∧
    ∃ t, exec (.jmp baseR) s = .next t ∧ transfersTo (s.readReg baseR) s t

/-- R124: JSRR reads its base after R7 has been written, so with BaseR = R7 it continues at the next instruction (C6). -/
def Obligations.CallThroughRegister : Prop :=
  ∀ (high : BitVec 2) (baseR : RegId) (low : BitVec 6) (s : State),
    decode (0b01000#5 ++ high ++ baseR ++ low) = .ok (.jsrr baseR) ∧
    ∃ t, exec (.jsrr baseR) s = .next t ∧ callsTo (if baseR = linkReg then s.pc else s.readReg baseR) s t

/-- R125: JSR. -/
def Obligations.CallPcRelative : Prop :=
  ∀ (off11 : BitVec 11) (s : State),
    decode (0b01001#5 ++ off11) = .ok (.jsr off11) ∧
    ∃ t, exec (.jsr off11) s = .next t ∧ callsTo (s.pc + off11.signExtend 16) s t

/-! ## Loads, stores and address load -/

/-- R140, R141: the two addressing modes as numbers modulo 2^16, with the reach of their offsets. -/
def Obligations.EffectiveAddressesWrapModulo65536 : Prop :=
  ∀ (s : State) (baseR : RegId) (off9 : BitVec 9) (off6 : BitVec 6),
    (∃ ea, s.eaPcRel off9 = .ok ea ∧ (ea.toNat : Int) = ((s.pc.toNat : Int) + off9.toInt) % 65536 ∧
      -256 ≤ off9.toInt ∧ off9.toInt ≤ 255) ∧
    (∃ ea, s.eaBase baseR off6 = .ok ea ∧ (ea.toNat : Int) = (((s.readReg baseR).toNat : Int) + off6.toInt) % 65536 ∧
      -32 ≤ off6.toInt ∧ off6.toInt ≤ 31)

/-- R143: LD, where the address names a cell. -/
def Obligations.LoadPcRelative : Prop :=
  ∀ (dr : RegId) (off9 : BitVec 9) (s : State),
    decode (0b0010#4 ++ dr ++ off9) = .ok (.ld dr off9) ∧
    ∀ v, s.memRead (s.pc + off9.signExtend 16) = .ok v →
      ∃ t, exec (.ld dr off9) s = .next t ∧ definesResult dr v s t

/-- R142, R144: LDI reads the pointer, then the data; CC is the data's. -/
def Obligations.LoadIndirect : Prop :=
  ∀ (dr : RegId) (off9 : BitVec 9) (s : State),
    decode (0b1010#4 ++ dr ++ off9) = .ok (.ldi dr off9) ∧
    ∀ ptr v, s.memRead (s.pc + off9.signExtend 16) = .ok ptr → s.memRead ptr = .ok v →
      ∃ t, exec (.ldi dr off9) s = .next t ∧ definesResult dr v s t

/-- R145: LDR; with DR = BaseR the address is the old base's. -/
def Obligations.LoadBaseOffset : Prop :=
  ∀ (dr baseR : RegId) (off6 : BitVec 6) (s : State),
    decode (0b0110#4 ++ dr ++ baseR ++ off6) = .ok (.ldr dr baseR off6) ∧
    ∀ v, s.memRead (s.readReg baseR + off6.signExtend 16) = .ok v →
      ∃ t, exec (.ldr dr baseR off6) s = .next t ∧ definesResult dr v s t

/-- R146: LEA makes no memory access, and sets CC (C7). -/
def Obligations.LoadEffectiveAddress : Prop :=
  ∀ (dr : RegId) (off9 : BitVec 9) (s : State),
    decode (0b1110#4 ++ dr ++ off9) = .ok (.lea dr off9) ∧
    ∃ t, exec (.lea dr off9) s = .next t ∧ definesResult dr (s.pc + off9.signExtend 16) s t

/-- R147: ST, where the address, computed as the meaning computes it, names a cell. -/
def Obligations.StorePcRelative : Prop :=
  ∀ (sr : RegId) (off9 : BitVec 9) (s : State),
    decode (0b0011#4 ++ sr ++ off9) = .ok (.st sr off9) ∧
    ∀ ea, s.eaPcRel off9 = .ok ea → ea.toNat < s.mem.words →
      ∃ t, exec (.st sr off9) s = .next t ∧ storesAt ea (s.readReg sr) s t

/-- R148: STI, where pointer and data address, computed as the meaning computes them, name cells. -/
def Obligations.StoreIndirect : Prop :=
  ∀ (sr : RegId) (off9 : BitVec 9) (s : State),
    decode (0b1011#4 ++ sr ++ off9) = .ok (.sti sr off9) ∧
    ∀ ea ptr, s.eaPcRel off9 = .ok ea → s.memRead ea = .ok ptr → ptr.toNat < s.mem.words →
      ∃ t, exec (.sti sr off9) s = .next t ∧ storesAt ptr (s.readReg sr) s t

/-- R149: STR, where the address, computed as the meaning computes it, names a cell. -/
def Obligations.StoreBaseOffset : Prop :=
  ∀ (sr baseR : RegId) (off6 : BitVec 6) (s : State),
    decode (0b0111#4 ++ sr ++ baseR ++ off6) = .ok (.str sr baseR off6) ∧
    ∀ ea, s.eaBase baseR off6 = .ok ea → ea.toNat < s.mem.words →
      ∃ t, exec (.str sr baseR off6) s = .next t ∧ storesAt ea (s.readReg sr) s t

/-- R43, R183, R186: an access that does not name a cell is Fatal(AccessFault) at its address, the pointer's before the
data's, and the status is all that changes. That it is a fault is the spec's own decision (D4, log 8). -/
def Obligations.DataAccessOutOfRangeIsFatal : Prop :=
  ∀ (r baseR : RegId) (off9 : BitVec 9) (off6 : BitVec 6) (s : State),
    (∀ ea, s.eaPcRel off9 = .ok ea → s.mem.words ≤ ea.toNat →
      exec (.ld r off9) s = .next (s.raiseFatal (.accessFault ea)) ∧
      exec (.st r off9) s = .next (s.raiseFatal (.accessFault ea)) ∧
      exec (.ldi r off9) s = .next (s.raiseFatal (.accessFault ea)) ∧
      exec (.sti r off9) s = .next (s.raiseFatal (.accessFault ea))) ∧
    (∀ ea ptr, s.eaPcRel off9 = .ok ea → s.memRead ea = .ok ptr → s.mem.words ≤ ptr.toNat →
      exec (.ldi r off9) s = .next (s.raiseFatal (.accessFault ptr)) ∧
      exec (.sti r off9) s = .next (s.raiseFatal (.accessFault ptr))) ∧
    (∀ ea, s.eaBase baseR off6 = .ok ea → s.mem.words ≤ ea.toNat →
      exec (.ldr r baseR off6) s = .next (s.raiseFatal (.accessFault ea)) ∧
      exec (.str r baseR off6) s = .next (s.raiseFatal (.accessFault ea)))

/-- R42: a cell reads as the latest write left it, every other cell and every other part of the state is as before. -/
def Obligations.MemoryReadsTheLatestWrite : Prop :=
  ∀ (s t : State) (addr v : Word), s.memWrite addr v = .ok t →
    t.memRead addr = .ok v ∧ cellsKept (some addr) s t ∧ regsKept none s t ∧ t.pc = s.pc ∧ t.cc = s.cc ∧ runKept s t

/-! ## TRAP and the reserved opcodes -/

/-- R171: TRAP answers with the state the handler leaves and the status its signal gives, unless this is the call at which the
handler never returns (log 12). The handler is called with the raw word and the state of the tick, PC already incremented; its
answer is a free value (log 11), and nothing is said of it. -/
def Obligations.TrapHandsTheRawWordToTheHandler : Prop :=
  ∀ (payload : BitVec 12) (s : State),
    decode (0b1111#4 ++ payload) = .ok (.trap payload) ∧
    (s.trapHang ≠ some s.trapCalls →
      ∃ answer, answer = Config.trapHandler (0b1111#4 ++ payload) s.regs s.pc s.cc s.mem s.trapCalls ∧
        exec (.trap payload) s = .next (s.runHandler answer.calls answer.signal))

/-- R170: "It may have no result for a given input. The tick then never completes: the run is stuck". The call at which it
happens is a field of the model's own (log 12); `t` is the state that the fetch leaves. -/
def Obligations.TrapIsStuckWhereTheHandlerNeverReturns : Prop :=
  ∀ (payload : BitVec 12) (s : State), s.trapHang = some s.trapCalls →
    exec (.trap payload) s = .fault .handlerNeverReturns

/-- R170, R171: the handler's calls take effect in order, each as R80 names it, and the state of the last one is the state the
handler leaves when it returns (its call counted, log 11). Whatever calls it makes, it changes only what they name: "engine
performs no further mutation". A register, PC, CC or a cell that no call writes is as before, and the size of memory is
fixed. A call out of range is Fatal(AccessFault) and none of the calls is kept (R183, R187; that it ends the handler so is
DEDUCED, log 13). -/
def Obligations.HandlersCallsTakeEffectInOrder : Prop :=
  ∀ (s : State) (sig : Signal),
    s.runCalls [] = .ok s ∧
    (∀ (c : AccessorCall) (rest : List AccessorCall),
      ((∀ a, callAddress c = some a → a.toNat < s.mem.words) →
        ∃ t, callLeaves c s t ∧ s.runCalls (c :: rest) = t.runCalls rest) ∧
      (∀ a, callAddress c = some a → s.mem.words ≤ a.toNat → s.runCalls (c :: rest) = .error (.accessFault a))) ∧
    (∀ (calls : List AccessorCall) (t : State), s.runCalls calls = .ok t →
      s.runHandler calls .continue = { t with trapCalls := t.trapCalls + 1 } ∧
      s.runHandler calls .haltOrError = { t with trapCalls := t.trapCalls + 1, status := .stopped } ∧
      t.trapCalls = s.trapCalls) ∧
    (∀ (calls : List AccessorCall) (r : FatalReason), s.runCalls calls = .error r →
      s.runHandler calls sig = s.raiseFatal r) ∧
    (∀ (calls : List AccessorCall) (t : State), t = s.runHandler calls sig →
      (∀ r, (∀ v, AccessorCall.regWrite r v ∉ calls) → t.readReg r = s.readReg r) ∧
      ((∀ v, AccessorCall.pcWrite v ∉ calls) → t.pc = s.pc) ∧
      ((∀ c, AccessorCall.ccWrite c ∉ calls) → t.cc = s.cc) ∧
      (∀ a, (∀ v, AccessorCall.memWrite a v ∉ calls) → t.memRead a = s.memRead a) ∧
      t.mem.words = s.mem.words ∧ t.trapHang = s.trapHang)

/-- R92, R93, R184: where no call of the handler is out of range, the signal decides the status and nothing else: HaltOrError
makes it Stopped, in the state the handler left. That Continue leaves the status as it is, where R93's step 4 writes Running,
is DEDUCED (log 15); that a call out of range keeps the handler from returning is DEDUCED (log 13). -/
def Obligations.HandlersSignalDecidesTheStatus : Prop :=
  ∀ (calls : List AccessorCall) (s : State),
    (∀ a, AccessorCall.memRead a ∈ calls → a.toNat < s.mem.words) →
    (∀ a v, AccessorCall.memWrite a v ∈ calls → a.toNat < s.mem.words) →
    (s.runHandler calls .continue).status = s.status ∧
    s.runHandler calls .haltOrError = { s.runHandler calls .continue with status := .stopped }

/-- R172, R181: each reserved opcode is fatal, records its value, and changes nothing but the status; unused bits do not matter.
The opcode values are D1's (log 1), and the state left is D13's. -/
def Obligations.ReservedOpcodesAreFatal : Prop :=
  ∀ (unused : BitVec 12) (s : State),
    decode (0b1000#4 ++ unused) = .ok .rsv8 ∧ decode (0b1101#4 ++ unused) = .ok .rsv13 ∧
    exec .rsv8 s = .next { s with status := .fatal (.reservedOpcode 0x8) } ∧
    exec .rsv13 s = .next { s with status := .fatal (.reservedOpcode 0xD) }

/-! ## The tick -/

/-- R89: the word at PC is fetched, PC is incremented modulo 2^16, and the decoded instruction runs in that state. -/
def Obligations.StepRunsTheDecodedInstruction : Prop :=
  ∀ (s : State) (w : Word) (i : Instr), s.status = .running → s.memRead s.pc = .ok w → decode w = .ok i →
    step s = exec i { s with pc := s.pc + 1 }

/-- R180, R187: a fetch out of range is fatal with PC at the fetch address; the step of an ended run runs no tick (R31). -/
def Obligations.NoTickWithoutAFetchOrARunningMachine : Prop :=
  ∀ s : State,
    (s.status = .running → s.mem.words ≤ s.pc.toNat →
      step s = .next { s with status := .fatal (.accessFault s.pc) }) ∧
    (s.status = .stopped → step s = .fault .runStopped) ∧
    (∀ r, s.status = .fatal r → step s = .fault (.runFatal r))

/-! ## Rules about the whole machine -/

/-- R22, R41: whatever an instruction other than TRAP answers, it wrote no register but the one R22 names, and no memory unless it
is ST, STI or STR. Under TRAP the handler may write any (R170). -/
def Obligations.OnlyTheNamedRegisterAndStoresWrite : Prop :=
  ∀ (i : Instr) (s t : State), (∀ payload, i ≠ .trap payload) → exec i s = .next t →
    regsKept (destination i) s t ∧ (writesMemory i = false → t.mem = s.mem) ∧
    t.mem.words = s.mem.words ∧ t.trapCalls = s.trapCalls ∧ t.trapHang = s.trapHang

/-- R29: CC is written only by the seven instructions, and then it is the class of their result register's new value. -/
def Obligations.OnlyResultInstructionsWriteCc : Prop :=
  ∀ (i : Instr) (s t : State), (∀ payload, i ≠ .trap payload) → exec i s = .next t →
    (updatesCc i = false → t.cc = s.cc) ∧
    (updatesCc i = true → t.status = s.status → s.status = .running →
      ∃ dr, destination i = some dr ∧ ccReflects t.cc (t.readReg dr))

/-- R29: "Within the engine, BR is the only instruction that reads `CC`": with another CC, an instruction that is neither BR nor
TRAP leaves the same registers, PC, memory and status. -/
def Obligations.OnlyBranchesReadCc : Prop :=
  ∀ (i : Instr) (s t : State) (c : Cond), (∀ n z p off9, i ≠ .br n z p off9) → (∀ payload, i ≠ .trap payload) →
    exec i s = .next t →
    ∃ t', exec i (s.writeCc c) = .next t' ∧ t'.writeCc t.cc = t ∧ (updatesCc i = true → s.status = .running →
      t.status = .running → t' = t)

/-- R23: a register that an instruction neither reads nor writes does not matter to it, and comes through unchanged. -/
def Obligations.UnreadRegistersDoNotMatter : Prop :=
  ∀ (i : Instr) (s t : State) (r : RegId) (v : Word), (∀ payload, i ≠ .trap payload) → r ∉ sources i →
    destination i ≠ some r → exec i s = .next t → exec i (s.writeReg r v) = .next (t.writeReg r v)

/-- R26: where a tick leaves PC, for every instruction but TRAP: the fetch address plus 1, or the target. -/
def Obligations.ProgramCounterAtTheEndOfATick : Prop :=
  ∀ (s t : State) (w : Word) (i : Instr), s.status = .running → s.memRead s.pc = .ok w → decode w = .ok i →
    step s = .next t →
    match i with
    | .br n z p off9 => t.pc = if taken n z p s.cc then s.pc + 1 + off9.signExtend 16 else s.pc + 1
    | .jmp baseR => t.pc = s.readReg baseR
    | .jsr off11 => t.pc = s.pc + 1 + off11.signExtend 16
    | .jsrr baseR => t.pc = if baseR = linkReg then s.pc + 1 else s.readReg baseR
    | .trap _ => True
    | _ => t.pc = s.pc + 1

/-- R187: every fatal event is precise. The state is as it was, but for the status and the increment of step 1: PC is the fetch
address if the fetch faulted, and the next one if not. This holds of a TRAP whose handler makes a call out of range too: none
of its writes is kept (log 13). -/
def Obligations.FatalEventsArePrecise : Prop :=
  ∀ (s t : State) (r : FatalReason), s.status = .running → step s = .next t → t.status = .fatal r →
    (t = { s with status := .fatal r } ∧ r = .accessFault s.pc ∧ s.mem.words ≤ s.pc.toNat) ∨
    (t = { s with pc := s.pc + 1, status := .fatal r } ∧ s.pc.toNat < s.mem.words)

/-- R181, R184, R196: how a run can end. Stopped comes only from a TRAP; ReservedOpcode comes exactly from a word whose opcode is
a reserved value, and records it. -/
def Obligations.CausesOfTheEndOfARun : Prop :=
  ∀ (s t : State) (w : Word), s.status = .running → s.memRead s.pc = .ok w → step s = .next t →
    (t.status = .stopped → w.extractLsb' 12 4 = opcodeValue .trap) ∧
    (∀ op, t.status = .fatal (.reservedOpcode op) ↔
      w.extractLsb' 12 4 = op ∧ (op = opcodeValue .rsv8 ∨ op = opcodeValue .rsv13))

/-- R86, R182: the engine never raises a contract violation: no step leads to one, from any state that is not one already. -/
def Obligations.EngineNeverViolatesTheToolkitsContract : Prop :=
  ∀ s t : State, (∀ r, s.status = .fatal r → r.isContractViolation = false) → step s = .next t →
    ∀ r, t.status = .fatal r → r.isContractViolation = false

/-- R43, R183: with MEM_WORDS = 65536 no access is out of range, whatever the handler does: the size stays and no step leads to an
access fault. With the toolkit's contract kept (R86), the only fatal event left is a reserved opcode. -/
def Obligations.FullMemoryFaultsOnlyOnReservedOpcodes : Prop :=
  ∀ s t : State, s.mem.words = 65536 → step s = .next t →
    t.mem.words = 65536 ∧
    ((∀ r, s.status = .fatal r → r.isAccessFault = false) → ∀ r, t.status = .fatal r → r.isAccessFault = false) ∧
    (s.safe → (∀ w, s.memRead s.pc = .ok w → decode w ≠ .ok .rsv8 ∧ decode w ≠ .ok .rsv13) → t.safe)

/-- The canonical form of memory is kept by every step, the handler's writes among them, and so is its size (R20). The form is the
model's choice (log 2). -/
def Obligations.EveryStepKeepsTheMemorysForm : Prop :=
  ∀ s t : State, s.mem.wf = true → step s = .next t → t.mem.wf = true ∧ t.mem.words = s.mem.words

/-- R211, R92: a running machine's step always answers a next state, unless its instruction is a TRAP at the call whose handler
never returns, which a field of the model's own names (log 12). A fatal event counts as a next state here, which is the
model's choice (log 14). No step, of a running machine or of an ended run, is ever refused. -/
def Obligations.RunningMachineAlwaysSteps : Prop :=
  (∀ s : State, s.status = .running →
    (∃ t, step s = .next t) ∨
    (step s = .fault .handlerNeverReturns ∧ s.trapHang = some s.trapCalls ∧
      ∃ w payload, s.memRead s.pc = .ok w ∧ decode w = .ok (.trap payload))) ∧
  (∀ (s : State) (r : Refusal), step s ≠ .refused r)

/-- R54: a store in one tick is seen by every later fetch of the written address: after a tick that ran ST, STI or STR onto the
cell at `a`, any later tick that fetches at `a` runs the stored word, as long as no tick between writes another value
there. With `n = 0` it is the very next tick. -/
def Obligations.LaterFetchesRunTheStoredWord : Prop :=
  ∀ (s : State) (w : Word) (sr : RegId) (i : Instr) (a : Word),
    s.status = .running → s.memRead s.pc = .ok w → decode w = .ok i →
    ((∃ off9, i = .st sr off9 ∧ s.incPc.eaPcRel off9 = .ok a) ∨
      (∃ off9, i = .sti sr off9 ∧ s.incPc.eaIndirect off9 = .ok a) ∨
      (∃ baseR off6, i = .str sr baseR off6 ∧ s.incPc.eaBase baseR off6 = .ok a)) →
    a.toNat < s.mem.words →
    ∃ t, step s = .next t ∧ t.pc = s.pc + 1 ∧ t.memRead a = .ok (s.readReg sr) ∧
      ∀ (n : Nat) (u : State) (j : Instr), ticksKeeping a n t u → u.status = .running → u.pc = a →
        decode (s.readReg sr) = .ok j → step u = exec j { u with pc := a + 1 }

/-! ## Reset and launch -/

/-- R206, R8: the status and the size of memory at reset are the spec's; every other value is the model's choice (log 3, 4, 5, 6),
as is the form of memory (log 2). -/
def Obligations.ResetState : Prop :=
  State.reset.status = .running ∧ State.reset.mem.words = 65536 ∧ State.reset.mem.wf = true ∧
  (∀ r, State.reset.readReg r = 0) ∧ State.reset.cc = .zro ∧ State.reset.pc = 0 ∧
  (∀ a, State.reset.memRead a = .ok 0)

/-- R200 to R206: a launch gives every parameter its place, and loads the image's words from its load address up: "`MEM[(L + i)] <-
w_i`". The image is the big-endian bytes of R203. Cells outside it are INIT_MEM's. MEM_WORDS is in R8's range or 0 (log 7).
The model's own two fields are the model's choice: `trapHang` is a parameter too (log 12), and `trapCalls` starts at 0 (log
11). -/
def Obligations.LaunchLoadsTheImage : Prop :=
  ∀ (p : LaunchParams) (load : Word) (program : List Word), load.toNat + program.length ≤ p.initMem.words →
    p.initMem.words ≤ 65536 →
    ∃ s, launch p ((load :: program).flatMap fun w => [w.extractLsb' 8 8, w.extractLsb' 0 8]) = .ok s ∧
      s.regs = p.initR ∧ s.cc = p.initCc ∧ s.pc = p.entry.getD load ∧ s.status = .running ∧
      s.mem.words = p.initMem.words ∧ s.trapHang = p.trapHang ∧ s.trapCalls = 0 ∧
      (∀ (k : Nat) (w : Word), program[k]? = some w → s.memRead (load + BitVec.ofNat 16 k) = .ok w) ∧
      (∀ a : Word, (a.toNat < load.toNat ∨ load.toNat + program.length ≤ a.toNat) → a.toNat < p.initMem.words →
        s.memRead a = .ok (readCell a.toNat p.initMem.cells))

/-- R204: the malformed images are refused, and no other. That they are refused is the spec's own decision (D9). Which refusal
an image gets is the model's choice: the first of the rule's three clauses that it meets; an image with no word and a load
address above a small memory meets the third and is refused (log 19). -/
def Obligations.LaunchRefusesMalformedImages : Prop :=
  ∀ (p : LaunchParams) (image : List Byte),
    ((∃ e, launch p image = .error e) ↔
      image.length % 2 = 1 ∨ image.length < 2 ∨
        ∃ load program, imageWords image = load :: program ∧ p.initMem.words < load.toNat + program.length) ∧
    (launch p image = .error .oddBytes ↔ image.length % 2 = 1) ∧
    (launch p image = .error .noLoadAddress ↔ image.length % 2 = 0 ∧ image.length < 2) ∧
    (launch p image = .error .doesNotFit ↔ image.length % 2 = 0 ∧
      ∃ load program, imageWords image = load :: program ∧ p.initMem.words < load.toNat + program.length)
end

