-- ==== Sys2Proof/Laws/Toolkit.lean ====
section
/-! SUPPORT. What the bit-field toolkit answers inside its preconditions, and what the engine's calls of it come to. -/

namespace Sys2Proof.Machine

theorem getLsbD_lowMask (width i : Nat) (hw : width ≤ 16) : (lowMask width).getLsbD i = decide (i < width) := by
  simp only [lowMask, BitVec.getLsbD_ofNat, Nat.testBit_two_pow_sub_one]
  by_cases h : i < width
  · simp [h]; omega
  · simp [h]

theorem getElem_lowMask (width i : Nat) (hw : width ≤ 16) (hi : i < 16) : (lowMask width)[i] = decide (i < width) := by
  rw [← BitVec.getLsbD_eq_getElem hi, getLsbD_lowMask width i hw]

@[simp] theorem getBit_ok (w : Word) (n : Nat) (h : n < 16) : getBit w n = .ok (w.getLsbD n) := by
  simp [getBit, h]

theorem getBits_ok (w : Word) (n width : Nat) (h1 : 1 ≤ width) (h : n + width ≤ 16) :
    getBits w n width = .ok ((w.extractLsb' n width).setWidth 16) := by
  have hn : n < 16 ∧ 1 ≤ width ∧ width ≤ 16 ∧ n + width ≤ 16 := by omega
  simp only [getBits, hn, and_self, if_true]
  congr 1
  apply BitVec.eq_of_getLsbD_eq
  intro i hi
  simp only [BitVec.getLsbD_and, BitVec.getLsbD_ushiftRight, getLsbD_lowMask width i (by omega),
    BitVec.getLsbD_setWidth, BitVec.getLsbD_extractLsb', hi, decide_true, Bool.true_and]
  by_cases h' : i < width <;> simp [h']

theorem fieldAt_ok (w : Word) (n width : Nat) (h1 : 1 ≤ width) (h : n + width ≤ 16) :
    fieldAt w n width = .ok (w.extractLsb' n width) := by
  simp only [fieldAt, getBits_ok w n width h1 h, Except.map]
  congr 1
  apply BitVec.eq_of_getLsbD_eq
  intro i hi
  have h16 : i < 16 := by omega
  simp [hi, h16]

/-- R84 on a field, as the engine calls it (R86): two's-complement extension to 16 bits. -/
theorem signExtend_field (k : Nat) (x : BitVec k) (h1 : 1 ≤ k) (h : k ≤ 16) :
    signExtend (x.setWidth 16) k = .ok (x.signExtend 16) := by
  simp only [signExtend, h1, h, and_self, if_true]
  congr 1
  apply BitVec.eq_of_getLsbD_eq
  intro i hi
  have hmsb : (BitVec.setWidth 16 x).getLsbD (k - 1) = x.msb := by
    have : k - 1 < 16 := by omega
    simp [BitVec.msb_eq_getLsbD_last, this]
  rw [BitVec.getLsbD_signExtend, hmsb]
  by_cases hk : i < k
  · cases x.msb <;> simp [hi, hk, getElem_lowMask k i h hi]
  · have hx : x.getLsbD i = false := BitVec.getLsbD_of_ge x i (by omega)
    cases x.msb <;> simp [hi, hk, hx, getElem_lowMask k i h hi]

@[simp] theorem sext5_ok (x : BitVec 5) : sext5 x = .ok (x.signExtend 16) := signExtend_field 5 x (by omega) (by omega)
@[simp] theorem sext6_ok (x : BitVec 6) : sext6 x = .ok (x.signExtend 16) := signExtend_field 6 x (by omega) (by omega)
@[simp] theorem sext9_ok (x : BitVec 9) : sext9 x = .ok (x.signExtend 16) := signExtend_field 9 x (by omega) (by omega)
@[simp] theorem sext11_ok (x : BitVec 11) : sext11 x = .ok (x.signExtend 16) :=
  signExtend_field 11 x (by omega) (by omega)

@[simp] theorem eaPcRel_ok (s : State) (off9 : BitVec 9) : s.eaPcRel off9 = .ok (s.pc + off9.signExtend 16) := by
  simp [State.eaPcRel, Except.map]

@[simp] theorem eaBase_ok (s : State) (baseR : RegId) (off6 : BitVec 6) :
    s.eaBase baseR off6 = .ok (s.readReg baseR + off6.signExtend 16) := by
  simp [State.eaBase, Except.map]

@[simp] theorem eaIndirect_eq (s : State) (off9 : BitVec 9) :
    s.eaIndirect off9 = s.memRead (s.pc + off9.signExtend 16) := by
  simp [State.eaIndirect]

end Sys2Proof.Machine
end

