-- ==== Sys2Proof/Laws/Decode.lean ====
section
/-! SUPPORT. What each format's decoder reads: the fields, as bits of the word; no call fails (R86). -/

namespace Sys2Proof

variable (w : Word)

theorem opcodeField_ok : opcodeField w = .ok (w.extractLsb' 12 4) :=
  Machine.fieldAt_ok w 12 4 (by omega) (by omega)

theorem decodeOperate_ok (reg : RegId → RegId → RegId → Instr) (imm : RegId → RegId → BitVec 5 → Instr) :
    decodeOperate w reg imm =
      .ok (if w.getLsbD 5 then imm (w.extractLsb' 9 3) (w.extractLsb' 6 3) (w.extractLsb' 0 5)
        else reg (w.extractLsb' 9 3) (w.extractLsb' 6 3) (w.extractLsb' 0 3)) := by
  cases h : w[5] <;>
    simp [decodeOperate, Machine.fieldAt_ok, Machine.getBit, h, bind, Except.bind, pure, Except.pure]

theorem decodePcRel_ok (form : RegId → BitVec 9 → Instr) :
    decodePcRel w form = .ok (form (w.extractLsb' 9 3) (w.extractLsb' 0 9)) := by
  simp [decodePcRel, Machine.fieldAt_ok, bind, Except.bind, pure, Except.pure]

theorem decodeBase_ok (form : RegId → RegId → BitVec 6 → Instr) :
    decodeBase w form = .ok (form (w.extractLsb' 9 3) (w.extractLsb' 6 3) (w.extractLsb' 0 6)) := by
  simp [decodeBase, Machine.fieldAt_ok, bind, Except.bind, pure, Except.pure]

theorem decodeNot_ok : decodeNot w = .ok (.not (w.extractLsb' 9 3) (w.extractLsb' 6 3)) := by
  simp [decodeNot, Machine.fieldAt_ok, bind, Except.bind, pure, Except.pure]

theorem decodeBr_ok :
    decodeBr w = .ok (.br (w.getLsbD 11) (w.getLsbD 10) (w.getLsbD 9) (w.extractLsb' 0 9)) := by
  simp [decodeBr, Machine.fieldAt_ok, bind, Except.bind, pure, Except.pure]

theorem decodeJmp_ok : decodeJmp w = .ok (.jmp (w.extractLsb' 6 3)) := by
  simp [decodeJmp, Machine.fieldAt_ok, bind, Except.bind, pure, Except.pure]

theorem decodeJsr_ok :
    decodeJsr w = .ok (if w.getLsbD 11 then .jsr (w.extractLsb' 0 11) else .jsrr (w.extractLsb' 6 3)) := by
  cases h : w[11] <;>
    simp [decodeJsr, Machine.fieldAt_ok, Machine.getBit, h, bind, Except.bind, pure, Except.pure]

theorem decodeTrap_ok : decodeTrap w = .ok (.trap (w.extractLsb' 0 12)) := by
  simp only [decodeTrap, Except.ok.injEq, Instr.trap.injEq]
  apply BitVec.eq_of_getLsbD_eq
  intro i hi
  simp [hi]

/-- R63: the map and its reading are inverse to each other (R9: OPCODE_OF is a bijection). -/
theorem opcodeOf_opcodeValue (o : Opcode) : opcodeOf (opcodeValue o) = o := by
  cases o <;> decide

theorem opcodeValue_opcodeOf (b : BitVec 4) : opcodeValue (opcodeOf b) = b := by
  revert b
  decide

end Sys2Proof
end

