-- ==== Sys2Proof/Laws/Memory.lean ====
section
/-! SUPPORT. The memory: a read after a write, and the canonical form that every write keeps. -/

namespace Sys2Proof.Machine

variable {a b : Nat} {v w : Word} {cells : List (Nat × Word)}

theorem readCell_eraseCell_same : ∀ cells, readCell a (eraseCell a cells) = Config.unlistedCell
  | [] => rfl
  | (b, w) :: rest => by
    by_cases h : a = b
    · subst h; simp [eraseCell, readCell_eraseCell_same rest]
    · simp [eraseCell, readCell, h, readCell_eraseCell_same rest]

theorem readCell_eraseCell_ne (h : b ≠ a) : ∀ cells, readCell b (eraseCell a cells) = readCell b cells
  | [] => rfl
  | (c, w) :: rest => by
    by_cases hc : a = c
    · subst hc; simp [eraseCell, readCell, h, readCell_eraseCell_ne h rest]
    · simp [eraseCell, readCell, hc, readCell_eraseCell_ne h rest]

theorem readCell_insertCell_same : ∀ cells, (∀ p ∈ cells, p.1 ≠ a) → readCell a (insertCell a v cells) = v
  | [], _ => by simp [insertCell, readCell]
  | (c, w) :: rest, h => by
    have hc : a ≠ c := fun he => h (c, w) (by simp) he.symm
    have ih := readCell_insertCell_same rest (fun p hp => h p (by simp [hp]))
    by_cases hlt : a < c <;> simp [insertCell, readCell, hlt, hc, ih]

theorem readCell_insertCell_ne (h : b ≠ a) : ∀ cells, readCell b (insertCell a v cells) = readCell b cells
  | [] => by simp [insertCell, readCell, h]
  | (c, w) :: rest => by
    by_cases hlt : a < c <;> simp [insertCell, readCell, hlt, h, readCell_insertCell_ne h rest]

theorem address_of_mem_eraseCell : ∀ cells, ∀ p ∈ eraseCell a cells, p.1 ≠ a
  | [], _, hp => by simp [eraseCell] at hp
  | (c, w) :: rest, p, hp => by
    by_cases hc : a = c
    · simp only [eraseCell, hc, if_true] at hp
      exact hc ▸ address_of_mem_eraseCell rest p (by simpa [hc] using hp)
    · simp only [eraseCell, hc, if_false, List.mem_cons] at hp
      rcases hp with rfl | hp
      · exact fun he => hc he.symm
      · exact address_of_mem_eraseCell rest p hp

@[simp] theorem readCell_writeCell_same (a : Nat) (v : Word) (cells : List (Nat × Word)) :
    readCell a (writeCell a v cells) = v := by
  unfold writeCell
  split
  · rename_i h; rw [readCell_eraseCell_same, h]
  · exact readCell_insertCell_same _ (address_of_mem_eraseCell cells)

theorem readCell_writeCell_ne (h : b ≠ a) : readCell b (writeCell a v cells) = readCell b cells := by
  unfold writeCell
  split
  · exact readCell_eraseCell_ne h cells
  · rw [readCell_insertCell_ne h, readCell_eraseCell_ne h]

theorem cellsCanonical_mono {lo lo' hi : Nat} (hle : lo' ≤ lo) :
    ∀ {cells}, cellsCanonical lo hi cells = true → cellsCanonical lo' hi cells = true
  | [], _ => rfl
  | (c, w) :: rest, h => by
    simp only [cellsCanonical, Bool.and_eq_true, decide_eq_true_eq] at h ⊢
    exact ⟨⟨⟨by omega, h.1.1.2⟩, h.1.2⟩, h.2⟩

theorem cellsCanonical_eraseCell {hi : Nat} :
    ∀ {lo cells}, cellsCanonical lo hi cells = true → cellsCanonical lo hi (eraseCell a cells) = true
  | _, [], _ => rfl
  | lo, (c, w) :: rest, h => by
    simp only [cellsCanonical, Bool.and_eq_true, decide_eq_true_eq] at h
    have ih := cellsCanonical_eraseCell h.2
    by_cases hc : a = c
    · simp only [eraseCell, hc, if_true]
      exact cellsCanonical_mono (by omega) (hc ▸ ih)
    · simp only [eraseCell, hc, if_false, cellsCanonical, Bool.and_eq_true, decide_eq_true_eq]
      exact ⟨h.1, ih⟩

theorem cellsCanonical_insertCell {hi : Nat} (ha : a < hi) (hv : v ≠ Config.unlistedCell) :
    ∀ {lo cells}, lo ≤ a → cellsCanonical lo hi cells = true → (∀ p ∈ cells, p.1 ≠ a) →
      cellsCanonical lo hi (insertCell a v cells) = true
  | lo, [], hlo, _, _ => by simp [insertCell, cellsCanonical, hlo, ha, hv]
  | lo, (c, w) :: rest, hlo, h, hne => by
    simp only [cellsCanonical, Bool.and_eq_true, decide_eq_true_eq] at h
    have hca : c ≠ a := hne (c, w) (by simp)
    by_cases hlt : a < c
    · simp only [insertCell, hlt, if_true, cellsCanonical, Bool.and_eq_true, decide_eq_true_eq]
      exact ⟨⟨⟨hlo, ha⟩, hv⟩, ⟨⟨by omega, h.1.1.2⟩, h.1.2⟩, h.2⟩
    · simp only [insertCell, hlt, if_false, cellsCanonical, Bool.and_eq_true, decide_eq_true_eq]
      exact ⟨h.1, cellsCanonical_insertCell ha hv (by omega) h.2 (fun p hp => hne p (by simp [hp]))⟩

theorem cellsCanonical_writeCell {hi : Nat} (ha : a < hi) (h : cellsCanonical 0 hi cells = true) :
    cellsCanonical 0 hi (writeCell a v cells) = true := by
  unfold writeCell
  split
  · exact cellsCanonical_eraseCell h
  · exact cellsCanonical_insertCell ha ‹_› (by omega) (cellsCanonical_eraseCell h) (address_of_mem_eraseCell cells)

theorem readCell_of_lt_canonical {hi : Nat} :
    ∀ {lo cells}, cellsCanonical lo hi cells = true → b < lo → readCell b cells = Config.unlistedCell
  | _, [], _, _ => rfl
  | lo, (c, w) :: rest, h, hb => by
    simp only [cellsCanonical, Bool.and_eq_true, decide_eq_true_eq] at h
    have hne : b ≠ c := by omega
    simp [readCell, hne, readCell_of_lt_canonical h.2 (by omega)]

/-- Canonical lists of cells that read alike are equal: equal memories are equal data. -/
theorem cellsCanonical_ext {hi : Nat} :
    ∀ {lo : Nat} {xs ys : List (Nat × Word)}, cellsCanonical lo hi xs = true → cellsCanonical lo hi ys = true →
      (∀ n, readCell n xs = readCell n ys) → xs = ys
  | _, [], [], _, _, _ => rfl
  | _, [], (c, w) :: rest, _, hy, h => by
    simp only [cellsCanonical, Bool.and_eq_true, decide_eq_true_eq] at hy
    exact absurd (h c).symm (by simpa [readCell] using hy.1.2)
  | _, (c, w) :: rest, [], hx, _, h => by
    simp only [cellsCanonical, Bool.and_eq_true, decide_eq_true_eq] at hx
    exact absurd (h c) (by simpa [readCell] using hx.1.2)
  | lo, (c, w) :: xs, (d, x) :: ys, hx, hy, h => by
    simp only [cellsCanonical, Bool.and_eq_true, decide_eq_true_eq] at hx hy
    have hcd : c = d := by
      rcases Nat.lt_trichotomy c d with hlt | heq | hgt
      · have := h c
        have hne : c ≠ d := by omega
        simp [readCell, hne, readCell_of_lt_canonical hy.2 (show c < d + 1 by omega)] at this
        exact absurd this hx.1.2
      · exact heq
      · have := h d
        have hne : d ≠ c := by omega
        simp [readCell, hne, readCell_of_lt_canonical hx.2 (show d < c + 1 by omega)] at this
        exact absurd this.symm hy.1.2
    subst hcd
    have hwx : w = x := by simpa [readCell] using h c
    subst hwx
    have hrest : xs = ys := by
      refine cellsCanonical_ext hx.2 hy.2 fun n => ?_
      by_cases hn : n = c
      · subst hn
        rw [readCell_of_lt_canonical hx.2 (by omega), readCell_of_lt_canonical hy.2 (by omega)]
      · simpa [readCell, hn] using h n
    rw [hrest]

section
variable {s t : State} {addr : Word} {x : Word}

/-- All that a memory write can do: it was in range, and the cells are the only field that changes. -/
theorem memWrite_ok (h : s.memWrite addr x = .ok t) :
    addr.toNat < s.mem.words ∧
      t = { s with mem := { s.mem with cells := writeCell addr.toNat x s.mem.cells } } := by
  unfold State.memWrite at h
  split at h
  · exact ⟨‹_›, (Except.ok.inj h).symm⟩
  · cases h

theorem memWrite_error {r : FatalReason} (h : s.memWrite addr x = .error r) :
    s.mem.words ≤ addr.toNat ∧ r = .accessFault addr := by
  unfold State.memWrite at h
  split at h
  · cases h
  · exact ⟨by omega, (Except.error.inj h).symm⟩

theorem memRead_ok (h : s.memRead addr = .ok x) :
    addr.toNat < s.mem.words ∧ x = readCell addr.toNat s.mem.cells := by
  unfold State.memRead at h
  split at h
  · exact ⟨‹_›, (Except.ok.inj h).symm⟩
  · cases h

theorem memRead_error {r : FatalReason} (h : s.memRead addr = .error r) :
    s.mem.words ≤ addr.toNat ∧ r = .accessFault addr := by
  unfold State.memRead at h
  split at h
  · cases h
  · exact ⟨by omega, (Except.error.inj h).symm⟩

/-- Every memory operation keeps the canonical form: a read changes nothing, and a write keeps it. -/
theorem memWrite_keeps_wf (hwf : s.mem.wf = true) (h : s.memWrite addr x = .ok t) : t.mem.wf = true := by
  obtain ⟨hin, rfl⟩ := memWrite_ok h
  simp only [Memory.wf, Bool.and_eq_true] at hwf ⊢
  exact ⟨hwf.1, cellsCanonical_writeCell hin hwf.2⟩

theorem reset_mem_wf : State.reset.mem.wf = true := by decide

end

end Sys2Proof.Machine
end

