-- ==== Sys2Proof/Laws/State.lean ====
section
/-! SUPPORT. One lemma per field per update of the state, so that no later proof unfolds a record update. -/

namespace Sys2Proof.Machine

section
variable (s : State) (r r' : RegId) (v : Word) (c : Cond) (e : FatalReason)

@[simp] theorem readReg_writeReg_same : (s.writeReg r v).readReg r = v := by
  simp [State.readReg, State.writeReg]

theorem readReg_writeReg_ne (h : r ≠ r') : (s.writeReg r v).readReg r' = s.readReg r' := by
  have : r.toNat ≠ r'.toNat := fun heq => h (BitVec.eq_of_toNat_eq heq)
  simp [State.readReg, State.writeReg, this]

/-- The one lemma that says what a register read after a register write gives. -/
theorem readReg_writeReg : (s.writeReg r v).readReg r' = if r = r' then v else s.readReg r' := by
  split
  · subst_vars; simp
  · exact readReg_writeReg_ne s r r' v ‹_›

@[simp] theorem writeReg_pc : (s.writeReg r v).pc = s.pc := rfl
@[simp] theorem writeReg_cc : (s.writeReg r v).cc = s.cc := rfl
@[simp] theorem writeReg_mem : (s.writeReg r v).mem = s.mem := rfl
@[simp] theorem writeReg_status : (s.writeReg r v).status = s.status := rfl
@[simp] theorem writeReg_trapCalls : (s.writeReg r v).trapCalls = s.trapCalls := rfl
@[simp] theorem writeReg_trapHang : (s.writeReg r v).trapHang = s.trapHang := rfl
@[simp] theorem writeReg_memRead (a : Word) : (s.writeReg r v).memRead a = s.memRead a := rfl

@[simp] theorem writePc_pc : (s.writePc v).pc = v := rfl
@[simp] theorem writePc_regs : (s.writePc v).regs = s.regs := rfl
@[simp] theorem writePc_readReg : (s.writePc v).readReg r = s.readReg r := rfl
@[simp] theorem writePc_cc : (s.writePc v).cc = s.cc := rfl
@[simp] theorem writePc_mem : (s.writePc v).mem = s.mem := rfl
@[simp] theorem writePc_status : (s.writePc v).status = s.status := rfl
@[simp] theorem writePc_trapCalls : (s.writePc v).trapCalls = s.trapCalls := rfl
@[simp] theorem writePc_trapHang : (s.writePc v).trapHang = s.trapHang := rfl
@[simp] theorem writePc_memRead (a : Word) : (s.writePc v).memRead a = s.memRead a := rfl

@[simp] theorem incPc_pc : s.incPc.pc = s.pc + 1 := rfl
@[simp] theorem incPc_regs : s.incPc.regs = s.regs := rfl
@[simp] theorem incPc_readReg : s.incPc.readReg r = s.readReg r := rfl
@[simp] theorem incPc_cc : s.incPc.cc = s.cc := rfl
@[simp] theorem incPc_mem : s.incPc.mem = s.mem := rfl
@[simp] theorem incPc_status : s.incPc.status = s.status := rfl
@[simp] theorem incPc_trapCalls : s.incPc.trapCalls = s.trapCalls := rfl
@[simp] theorem incPc_trapHang : s.incPc.trapHang = s.trapHang := rfl
@[simp] theorem incPc_memRead (a : Word) : s.incPc.memRead a = s.memRead a := rfl

@[simp] theorem writeCc_cc : (s.writeCc c).cc = c := rfl
@[simp] theorem writeCc_regs : (s.writeCc c).regs = s.regs := rfl
@[simp] theorem writeCc_readReg : (s.writeCc c).readReg r = s.readReg r := rfl
@[simp] theorem writeCc_pc : (s.writeCc c).pc = s.pc := rfl
@[simp] theorem writeCc_mem : (s.writeCc c).mem = s.mem := rfl
@[simp] theorem writeCc_status : (s.writeCc c).status = s.status := rfl
@[simp] theorem writeCc_trapCalls : (s.writeCc c).trapCalls = s.trapCalls := rfl
@[simp] theorem writeCc_trapHang : (s.writeCc c).trapHang = s.trapHang := rfl
@[simp] theorem writeCc_memRead (a : Word) : (s.writeCc c).memRead a = s.memRead a := rfl

@[simp] theorem raiseFatal_status : (s.raiseFatal e).status = .fatal e := rfl
@[simp] theorem raiseFatal_regs : (s.raiseFatal e).regs = s.regs := rfl
@[simp] theorem raiseFatal_readReg : (s.raiseFatal e).readReg r = s.readReg r := rfl
@[simp] theorem raiseFatal_pc : (s.raiseFatal e).pc = s.pc := rfl
@[simp] theorem raiseFatal_cc : (s.raiseFatal e).cc = s.cc := rfl
@[simp] theorem raiseFatal_mem : (s.raiseFatal e).mem = s.mem := rfl
@[simp] theorem raiseFatal_trapCalls : (s.raiseFatal e).trapCalls = s.trapCalls := rfl
@[simp] theorem raiseFatal_trapHang : (s.raiseFatal e).trapHang = s.trapHang := rfl
@[simp] theorem raiseFatal_memRead (a : Word) : (s.raiseFatal e).memRead a = s.memRead a := rfl

@[simp] theorem complete_continue : s.complete .continue = s := rfl
@[simp] theorem complete_haltOrError_status : (s.complete .haltOrError).status = .stopped := rfl

@[simp] theorem complete_regs (g : Signal) : (s.complete g).regs = s.regs := by cases g <;> rfl
@[simp] theorem complete_readReg (g : Signal) : (s.complete g).readReg r = s.readReg r := by cases g <;> rfl
@[simp] theorem complete_pc (g : Signal) : (s.complete g).pc = s.pc := by cases g <;> rfl
@[simp] theorem complete_cc (g : Signal) : (s.complete g).cc = s.cc := by cases g <;> rfl
@[simp] theorem complete_mem (g : Signal) : (s.complete g).mem = s.mem := by cases g <;> rfl
@[simp] theorem complete_trapCalls (g : Signal) : (s.complete g).trapCalls = s.trapCalls := by cases g <;> rfl
@[simp] theorem complete_trapHang (g : Signal) : (s.complete g).trapHang = s.trapHang := by cases g <;> rfl

@[simp] theorem complete_memRead (g : Signal) (a : Word) : (s.complete g).memRead a = s.memRead a := by cases g <;> rfl

@[simp] theorem setcc_cc : (s.setcc v).cc = condOf v := rfl
@[simp] theorem setcc_readReg : (s.setcc v).readReg r = s.readReg r := rfl
@[simp] theorem setcc_pc : (s.setcc v).pc = s.pc := rfl
@[simp] theorem setcc_mem : (s.setcc v).mem = s.mem := rfl
@[simp] theorem setcc_status : (s.setcc v).status = s.status := rfl
@[simp] theorem setcc_trapCalls : (s.setcc v).trapCalls = s.trapCalls := rfl
@[simp] theorem setcc_trapHang : (s.setcc v).trapHang = s.trapHang := rfl

@[simp] theorem defineResult_readReg_same : (s.defineResult r v).readReg r = v := by
  simp [State.defineResult]
theorem defineResult_readReg_ne (h : r ≠ r') : (s.defineResult r v).readReg r' = s.readReg r' := by
  simp [State.defineResult, readReg_writeReg_ne s r r' v h]
@[simp] theorem defineResult_cc : (s.defineResult r v).cc = condOf v := by
  simp [State.defineResult]
@[simp] theorem defineResult_pc : (s.defineResult r v).pc = s.pc := rfl
@[simp] theorem defineResult_mem : (s.defineResult r v).mem = s.mem := rfl
@[simp] theorem defineResult_status : (s.defineResult r v).status = s.status := rfl
@[simp] theorem defineResult_trapCalls : (s.defineResult r v).trapCalls = s.trapCalls := rfl
@[simp] theorem defineResult_trapHang : (s.defineResult r v).trapHang = s.trapHang := rfl
@[simp] theorem defineResult_memRead (a : Word) : (s.defineResult r v).memRead a = s.memRead a := rfl

/-- Two register writes to different registers commute. -/
theorem writeReg_comm (v' : Word) (h : r ≠ r') :
    (s.writeReg r v).writeReg r' v' = (s.writeReg r' v').writeReg r v := by
  have : r.toNat ≠ r'.toNat := fun heq => h (BitVec.eq_of_toNat_eq heq)
  simp only [State.writeReg, Vector.set_comm _ _ this]

end

/-- Two states are equal when every register and every other field agree. -/
theorem state_ext {s t : State} (hr : ∀ r, s.readReg r = t.readReg r) (hp : s.pc = t.pc) (hc : s.cc = t.cc)
    (hm : s.mem = t.mem) (hs : s.status = t.status) (hn : s.trapCalls = t.trapCalls) (hh : s.trapHang = t.trapHang) :
    s = t := by
  have hregs : s.regs = t.regs := by
    apply Vector.ext
    intro i hi
    have := hr (BitVec.ofNat 3 i)
    simpa [State.readReg, BitVec.toNat_ofNat, Nat.mod_eq_of_lt hi] using this
  cases s
  cases t
  simp_all

end Sys2Proof.Machine
end

