-- ==== Sys2Proof/Laws/Ops.lean ====
section
/-! SUPPORT. For each shared operation, once, all that it can do: the lemmas the proofs cite instead of unfolding it. -/

namespace Sys2Proof.Machine

variable {s t : State}

section
variable {α : Type} {k : α → Result}

@[simp] theorem orFatal_ok (v : α) : s.orFatal (.ok v) k = k v := rfl
@[simp] theorem orFatal_error (r : FatalReason) : s.orFatal (.error r) k = .next (s.raiseFatal r) := rfl

/-- All that a fatal-or-go-on step can do, if it answers a next state. -/
theorem orFatal_cases {x : Except FatalReason α} (h : s.orFatal x k = .next t) :
    (∃ v, x = .ok v ∧ k v = .next t) ∨ (∃ r, x = .error r ∧ t = s.raiseFatal r) := by
  cases x with
  | ok v => exact .inl ⟨v, rfl, h⟩
  | error r => exact .inr ⟨r, rfl, (Host.Outcome.next.inj h).symm⟩

/-- A fatal-or-go-on step stops or is refused only where what it goes on with does. -/
theorem orFatal_fault {x : Except FatalReason α} {f : Fault} (h : s.orFatal x k = .fault f) :
    ∃ v, x = .ok v ∧ k v = .fault f := by
  cases x with
  | ok v => exact ⟨v, rfl, h⟩
  | error r => cases h

theorem orFatal_refused {x : Except FatalReason α} {f : Refusal} (h : s.orFatal x k = .refused f) :
    ∃ v, x = .ok v ∧ k v = .refused f := by
  cases x with
  | ok v => exact ⟨v, rfl, h⟩
  | error r => cases h

end

/-- All that a read can answer. -/
theorem memRead_cases (s : State) (addr : Word) :
    (addr.toNat < s.mem.words ∧ s.memRead addr = .ok (readCell addr.toNat s.mem.cells)) ∨
      (s.mem.words ≤ addr.toNat ∧ s.memRead addr = .error (.accessFault addr)) := by
  unfold State.memRead
  split
  · exact .inl ⟨‹_›, rfl⟩
  · exact .inr ⟨by omega, rfl⟩

/-- What a memory write leaves of every other field, and of every cell. -/
theorem memWrite_fields {addr v : Word} (h : s.memWrite addr v = .ok t) :
    t.regs = s.regs ∧ t.pc = s.pc ∧ t.cc = s.cc ∧ t.mem.words = s.mem.words ∧ t.status = s.status ∧
      t.trapCalls = s.trapCalls ∧ t.trapHang = s.trapHang := by
  obtain ⟨_, rfl⟩ := memWrite_ok h
  exact ⟨rfl, rfl, rfl, rfl, rfl, rfl, rfl⟩

theorem memWrite_readReg {addr v : Word} (h : s.memWrite addr v = .ok t) (r : RegId) : t.readReg r = s.readReg r := by
  obtain ⟨_, rfl⟩ := memWrite_ok h
  rfl

theorem memWrite_memRead {addr v : Word} (h : s.memWrite addr v = .ok t) (a : Word) :
    t.memRead a = if a = addr then .ok v else s.memRead a := by
  obtain ⟨hin, rfl⟩ := memWrite_ok h
  by_cases ha : a = addr
  · subst ha; simp [State.memRead, hin]
  · have hne : a.toNat ≠ addr.toNat := fun he => ha (BitVec.eq_of_toNat_eq he)
    simp [State.memRead, ha, readCell_writeCell_ne hne]

/-- All that one accessor call of the handler can do. -/
theorem accessorCall_cases {c : AccessorCall} (h : s.accessorCall c = .ok t) :
    (∃ id v, c = .regWrite id v ∧ t = s.writeReg id v) ∨ (∃ v, c = .pcWrite v ∧ t = s.writePc v) ∨
      (∃ x, c = .ccWrite x ∧ t = s.writeCc x) ∨ (∃ a v, c = .memRead a ∧ s.memRead a = .ok v ∧ t = s) ∨
      (∃ a v, c = .memWrite a v ∧ s.memWrite a v = .ok t) := by
  cases c with
  | regWrite id v => exact .inl ⟨id, v, rfl, (Except.ok.inj h).symm⟩
  | pcWrite v => exact .inr (.inl ⟨v, rfl, (Except.ok.inj h).symm⟩)
  | ccWrite x => exact .inr (.inr (.inl ⟨x, rfl, (Except.ok.inj h).symm⟩))
  | memRead a =>
    simp only [State.accessorCall] at h
    cases hr : s.memRead a with
    | ok v =>
      rw [hr] at h
      exact .inr (.inr (.inr (.inl ⟨a, v, rfl, hr, (Except.ok.inj h).symm⟩)))
    | error r =>
      rw [hr] at h
      cases h
  | memWrite a v => exact .inr (.inr (.inr (.inr ⟨a, v, rfl, h⟩)))

/-- The only fatal event a handler's accessor call can raise. -/
theorem accessorCall_error {c : AccessorCall} {r : FatalReason} (h : s.accessorCall c = .error r) :
    ∃ a, s.mem.words ≤ a.toNat ∧ r = .accessFault a := by
  cases c with
  | regWrite id v => cases h
  | pcWrite v => cases h
  | ccWrite x => cases h
  | memRead a =>
    simp only [State.accessorCall] at h
    cases hr : s.memRead a with
    | ok v =>
      rw [hr] at h
      cases h
    | error e =>
      rw [hr] at h
      obtain ⟨hle, rfl⟩ := memRead_error hr
      exact ⟨a, hle, (Except.error.inj h).symm⟩
  | memWrite a v =>
    obtain ⟨hle, rfl⟩ := memWrite_error h
    exact ⟨a, hle, rfl⟩

/-- A successful accessor call leaves the size of memory, the status and the model's own fields. -/
theorem accessorCall_keeps {c : AccessorCall} (h : s.accessorCall c = .ok t) :
    t.mem.words = s.mem.words ∧ t.status = s.status ∧ t.trapCalls = s.trapCalls ∧ t.trapHang = s.trapHang := by
  rcases accessorCall_cases h with ⟨_, _, _, rfl⟩ | ⟨_, _, rfl⟩ | ⟨_, _, rfl⟩ | ⟨_, _, _, _, rfl⟩ | ⟨_, _, _, hw⟩
  · exact ⟨rfl, rfl, rfl, rfl⟩
  · exact ⟨rfl, rfl, rfl, rfl⟩
  · exact ⟨rfl, rfl, rfl, rfl⟩
  · exact ⟨rfl, rfl, rfl, rfl⟩
  · obtain ⟨_, _, _, h4, h5, h6, h7⟩ := memWrite_fields hw
    exact ⟨h4, h5, h6, h7⟩

@[simp] theorem runCalls_nil (s : State) : s.runCalls [] = .ok s := rfl

/-- The calls after one that succeeds run in the state it left. -/
theorem runCalls_cons_ok {c : AccessorCall} (h : s.accessorCall c = .ok t) (rest : List AccessorCall) :
    s.runCalls (c :: rest) = t.runCalls rest := by
  simp [State.runCalls, h]

/-- No call after one that is out of range runs. -/
theorem runCalls_cons_error {c : AccessorCall} {r : FatalReason} (h : s.accessorCall c = .error r)
    (rest : List AccessorCall) : s.runCalls (c :: rest) = .error r := by
  simp [State.runCalls, h]

/-- What holds of the state before the handler's first call and is kept by each call of the list holds of the state after the
last. -/
theorem runCalls_induct (P : State → Prop) :
    ∀ (calls : List AccessorCall) (s : State), (∀ s c t, c ∈ calls → P s → s.accessorCall c = .ok t → P t) → P s →
      s.runCalls calls = .ok t → P t
  | [], s, _, h, heq => Except.ok.inj heq ▸ h
  | c :: rest, s, hcall, h, heq => by
    cases hc : s.accessorCall c with
    | ok s' =>
      rw [runCalls_cons_ok hc] at heq
      exact runCalls_induct P rest s' (fun a b d hb => hcall a b d (List.mem_cons_of_mem c hb))
        (hcall s c s' List.mem_cons_self h hc) heq
    | error r =>
      rw [runCalls_cons_error hc] at heq
      cases heq

/-- The handler's calls leave the size of memory, the status and the model's own fields. -/
theorem runCalls_keeps {calls : List AccessorCall} (h : s.runCalls calls = .ok t) :
    t.mem.words = s.mem.words ∧ t.status = s.status ∧ t.trapCalls = s.trapCalls ∧ t.trapHang = s.trapHang := by
  refine runCalls_induct (fun u => u.mem.words = s.mem.words ∧ u.status = s.status ∧ u.trapCalls = s.trapCalls ∧
    u.trapHang = s.trapHang) calls s ?_ ⟨rfl, rfl, rfl, rfl⟩ h
  intro a c b _ ⟨h1, h2, h3, h4⟩ hc
  obtain ⟨k1, k2, k3, k4⟩ := accessorCall_keeps hc
  exact ⟨k1.trans h1, k2.trans h2, k3.trans h3, k4.trans h4⟩

/-- The only fatal event the handler's calls can raise. -/
theorem runCalls_error {r : FatalReason} :
    ∀ {calls : List AccessorCall} {s : State}, s.runCalls calls = .error r →
      ∃ a, s.mem.words ≤ a.toNat ∧ r = .accessFault a
  | c :: rest, s, h => by
    cases hc : s.accessorCall c with
    | ok s' =>
      rw [runCalls_cons_ok hc] at h
      obtain ⟨a, ha, hr⟩ := runCalls_error h
      exact ⟨a, (accessorCall_keeps hc).1 ▸ ha, hr⟩
    | error e =>
      rw [runCalls_cons_error hc] at h
      exact Except.error.inj h ▸ accessorCall_error hc

/-- All that a handler's answer can do: its calls all take effect, or none does. -/
theorem runHandler_cases (s : State) (calls : List AccessorCall) (sig : Signal) :
    (∃ s', s.runCalls calls = .ok s' ∧
      s.runHandler calls sig = { s' with trapCalls := s'.trapCalls + 1 }.complete sig) ∨
    (∃ a, s.mem.words ≤ a.toNat ∧ s.runCalls calls = .error (.accessFault a) ∧
      s.runHandler calls sig = s.raiseFatal (.accessFault a)) := by
  cases h : s.runCalls calls with
  | ok s' => exact .inl ⟨s', rfl, by simp [State.runHandler, h]⟩
  | error r =>
    obtain ⟨a, ha, rfl⟩ := runCalls_error h
    exact .inr ⟨a, ha, rfl, by simp [State.runHandler, h]⟩

/-- All that a TRAP call can do. -/
theorem trapCall_cases (s : State) (instr : Word) :
    (s.trapHang = some s.trapCalls ∧ s.trapCall instr = .fault .handlerNeverReturns) ∨
      (s.trapHang ≠ some s.trapCalls ∧ s.trapCall instr =
        .next (s.runHandler (s.handlerAnswer instr).calls (s.handlerAnswer instr).signal)) := by
  unfold State.trapCall
  split
  · exact .inl ⟨‹_›, rfl⟩
  · exact .inr ⟨‹_›, rfl⟩

/-- All that one step can do, by how the run stands. -/
theorem step_eq (s : State) :
    step s = match s.status with
      | .running => s.tick exec
      | .stopped => .fault .runStopped
      | .fatal r => .fault (.runFatal r) := rfl

theorem step_running (h : s.status = .running) : step s = s.tick exec := by
  simp [step_eq, h]

end Sys2Proof.Machine
end

