-- ==== Sys2Proof/Laws/Exec.lean ====
section
/-!
SUPPORT. Each instruction's meaning with its operands resolved: the sign extensions succeed (R86), so an address or an
immediate is a sum of words. The proofs cite these instead of unfolding a meaning.
-/

namespace Sys2Proof.Machine

variable (s : State) (dr sr sr1 sr2 baseR : RegId)

theorem exec_addReg : exec (.addReg dr sr1 sr2) s = .next (s.defineResult dr (s.readReg sr1 + s.readReg sr2)) := rfl

theorem exec_addImm (imm5 : BitVec 5) :
    exec (.addImm dr sr1 imm5) s = .next (s.defineResult dr (s.readReg sr1 + imm5.signExtend 16)) := by
  simp [exec, execAddImm]

theorem exec_andReg : exec (.andReg dr sr1 sr2) s = .next (s.defineResult dr (s.readReg sr1 &&& s.readReg sr2)) := rfl

theorem exec_andImm (imm5 : BitVec 5) :
    exec (.andImm dr sr1 imm5) s = .next (s.defineResult dr (s.readReg sr1 &&& imm5.signExtend 16)) := by
  simp [exec, execAndImm]

theorem exec_not : exec (.not dr sr) s = .next (s.defineResult dr (~~~(s.readReg sr))) := rfl

theorem exec_br (n z p : Bool) (off9 : BitVec 9) :
    exec (.br n z p off9) s = .next (if taken n z p s.cc then s.writePc (s.pc + off9.signExtend 16) else s) := by
  by_cases h : taken n z p s.cc <;> simp [exec, execBr, h]

theorem exec_jmp : exec (.jmp baseR) s = .next (s.writePc (s.readReg baseR)) := rfl

theorem exec_jsrr :
    exec (.jsrr baseR) s =
      .next ((s.writeReg linkReg s.pc).writePc (if linkReg = baseR then s.pc else s.readReg baseR)) := by
  simp [exec, execJsrr, State.link, readReg_writeReg]

theorem exec_jsr (off11 : BitVec 11) :
    exec (.jsr off11) s = .next ((s.writeReg linkReg s.pc).writePc (s.pc + off11.signExtend 16)) := by
  simp [exec, execJsr, State.link]

theorem exec_ld (off9 : BitVec 9) :
    exec (.ld dr off9) s =
      s.orFatal (s.memRead (s.pc + off9.signExtend 16)) fun v => .next (s.defineResult dr v) := by
  simp [exec, execLd]

theorem exec_ldi (off9 : BitVec 9) :
    exec (.ldi dr off9) s =
      s.orFatal (s.memRead (s.pc + off9.signExtend 16)) fun ptr =>
      s.orFatal (s.memRead ptr) fun v => .next (s.defineResult dr v) := by
  simp [exec, execLdi]

theorem exec_ldr (off6 : BitVec 6) :
    exec (.ldr dr baseR off6) s =
      s.orFatal (s.memRead (s.readReg baseR + off6.signExtend 16)) fun v => .next (s.defineResult dr v) := by
  simp [exec, execLdr]

theorem exec_lea (off9 : BitVec 9) :
    exec (.lea dr off9) s = .next (s.defineResult dr (s.pc + off9.signExtend 16)) := by
  simp [exec, execLea]

theorem exec_st (off9 : BitVec 9) :
    exec (.st sr off9) s = s.orFatal (s.memWrite (s.pc + off9.signExtend 16) (s.readReg sr)) .next := by
  simp [exec, execSt]

theorem exec_sti (off9 : BitVec 9) :
    exec (.sti sr off9) s =
      s.orFatal (s.memRead (s.pc + off9.signExtend 16)) fun ptr =>
      s.orFatal (s.memWrite ptr (s.readReg sr)) .next := by
  simp [exec, execSti]

theorem exec_str (off6 : BitVec 6) :
    exec (.str sr baseR off6) s =
      s.orFatal (s.memWrite (s.readReg baseR + off6.signExtend 16) (s.readReg sr)) .next := by
  simp [exec, execStr]

theorem exec_trap (payload : BitVec 12) : exec (.trap payload) s = s.trapCall (trapWord payload) := rfl

theorem exec_rsv8 : exec .rsv8 s = .next (s.raiseFatal (.reservedOpcode 0x8)) := rfl

theorem exec_rsv13 : exec .rsv13 s = .next (s.raiseFatal (.reservedOpcode 0xD)) := rfl

end Sys2Proof.Machine
end

