-- ==== Sys2Proof/Laws/Launch.lean ====
section
/-! SUPPORT. What a launch does: its image loaded, its memory in canonical form. -/

namespace Sys2Proof.Machine

/-- A word of the program is loaded at its place, and no other cell changes. -/
theorem readCell_loadWords (a : Nat) :
    ∀ (program : List Word) (addr : Nat) (cells : List (Nat × Word)),
      readCell a (loadWords addr cells program) =
        if addr ≤ a then (program[a - addr]?).getD (readCell a cells) else readCell a cells
  | [], addr, cells => by simp [loadWords]
  | w :: rest, addr, cells => by
    rw [loadWords, readCell_loadWords a rest (addr + 1) (writeCell addr w cells)]
    rcases Nat.lt_trichotomy a addr with hlt | heq | hgt
    · have h1 : ¬addr + 1 ≤ a := by omega
      have h2 : ¬addr ≤ a := by omega
      simp [h1, h2, readCell_writeCell_ne (show a ≠ addr by omega)]
    · subst heq
      simp
    · have h1 : addr + 1 ≤ a := by omega
      have h2 : addr ≤ a := by omega
      obtain ⟨k, hk⟩ : ∃ k, a - addr = k + 1 := ⟨a - addr - 1, by omega⟩
      have hk' : a - (addr + 1) = k := by omega
      simp [h1, h2, hk, hk', readCell_writeCell_ne (show a ≠ addr by omega)]

theorem cellsCanonical_loadWords {hi : Nat} :
    ∀ (program : List Word) (addr : Nat) (cells : List (Nat × Word)), addr + program.length ≤ hi →
      cellsCanonical 0 hi cells = true → cellsCanonical 0 hi (loadWords addr cells program) = true
  | [], _, _, _, h => h
  | w :: rest, addr, cells, hle, h => by
    simp only [List.length_cons] at hle
    exact cellsCanonical_loadWords rest (addr + 1) (writeCell addr w cells) (by omega)
      (cellsCanonical_writeCell (by omega) h)

/-- All that the image check can accept: an even file whose words fit. -/
theorem checkImage_ok {memWords : Nat} {bytes : List Byte} {load : Word} {program : List Word}
    (h : checkImage memWords bytes = .ok (load, program)) :
    imageWords bytes = load :: program ∧ load.toNat + program.length ≤ memWords := by
  unfold checkImage at h
  split at h
  · cases h
  · split at h
    · cases h
    · split at h
      · cases h
        exact ⟨‹_›, ‹_›⟩
      · cases h

/-- R205: a launch from a memory in canonical form starts in one. -/
theorem launch_keeps_wf {p : LaunchParams} {image : List Byte} {s : State} (hwf : p.initMem.wf = true)
    (h : launch p image = .ok s) : s.mem.wf = true := by
  unfold launch at h
  split at h
  · cases h
  · rename_i load program hok
    obtain ⟨_, hfit⟩ := checkImage_ok hok
    cases h
    simp only [Memory.wf, Bool.and_eq_true] at hwf ⊢
    exact ⟨hwf.1, cellsCanonical_loadWords program load.toNat p.initMem.cells hfit hwf.2⟩

end Sys2Proof.Machine
end

