-- ==== Sys2Proof/Laws/PerInstr.lean ====
section
/-!
SUPPORT. Laws proved per constructor of `Instr`. The one family so far: the word of an instruction lies in the row of
spec/opcode_table.json that the instruction stands for (spec/30_encoding.md R61, R63).
-/

namespace Sys2Proof.Laws.EncodesIntoItsRow

/-- The fixed bits of the instruction's word are its table row's. -/
def Statement (i : Instr) : Prop := encode i &&& (tableRow i).mask = (tableRow i).bits

/-- Two words are equal when their 16 bits are. -/
theorem word_ext {v w : Word} (h : ∀ k : Fin 16, v.getLsbD k = w.getLsbD k) : v = w :=
  BitVec.eq_of_getLsbD_eq fun k hk => h ⟨k, hk⟩

theorem addReg (dr : RegId) (sr1 : RegId) (sr2 : RegId) : Statement (.addReg dr sr1 sr2) := by
  refine word_ext fun k => ?_
  fin_cases k <;> simp only [encode, tableRow, opcodeValue, BitVec.getLsbD_and, BitVec.getLsbD_append] <;> simp

theorem addImm (dr : RegId) (sr1 : RegId) (imm5 : BitVec 5) : Statement (.addImm dr sr1 imm5) := by
  refine word_ext fun k => ?_
  fin_cases k <;> simp only [encode, tableRow, opcodeValue, BitVec.getLsbD_and, BitVec.getLsbD_append] <;> simp

theorem andReg (dr : RegId) (sr1 : RegId) (sr2 : RegId) : Statement (.andReg dr sr1 sr2) := by
  refine word_ext fun k => ?_
  fin_cases k <;> simp only [encode, tableRow, opcodeValue, BitVec.getLsbD_and, BitVec.getLsbD_append] <;> simp

theorem andImm (dr : RegId) (sr1 : RegId) (imm5 : BitVec 5) : Statement (.andImm dr sr1 imm5) := by
  refine word_ext fun k => ?_
  fin_cases k <;> simp only [encode, tableRow, opcodeValue, BitVec.getLsbD_and, BitVec.getLsbD_append] <;> simp

theorem not (dr : RegId) (sr : RegId) : Statement (.not dr sr) := by
  refine word_ext fun k => ?_
  fin_cases k <;> simp only [encode, tableRow, opcodeValue, BitVec.getLsbD_and, BitVec.getLsbD_append] <;> simp

theorem br (n : Bool) (z : Bool) (p : Bool) (off9 : BitVec 9) : Statement (.br n z p off9) := by
  refine word_ext fun k => ?_
  fin_cases k <;> simp only [encode, tableRow, opcodeValue, BitVec.getLsbD_and, BitVec.getLsbD_append] <;> simp

theorem jmp (baseR : RegId) : Statement (.jmp baseR) := by
  refine word_ext fun k => ?_
  fin_cases k <;> simp only [encode, tableRow, opcodeValue, BitVec.getLsbD_and, BitVec.getLsbD_append] <;> simp

theorem jsrr (baseR : RegId) : Statement (.jsrr baseR) := by
  refine word_ext fun k => ?_
  fin_cases k <;> simp only [encode, tableRow, opcodeValue, BitVec.getLsbD_and, BitVec.getLsbD_append] <;> simp

theorem jsr (off11 : BitVec 11) : Statement (.jsr off11) := by
  refine word_ext fun k => ?_
  fin_cases k <;> simp only [encode, tableRow, opcodeValue, BitVec.getLsbD_and, BitVec.getLsbD_append] <;> simp

theorem ld (dr : RegId) (off9 : BitVec 9) : Statement (.ld dr off9) := by
  refine word_ext fun k => ?_
  fin_cases k <;> simp only [encode, tableRow, opcodeValue, BitVec.getLsbD_and, BitVec.getLsbD_append] <;> simp

theorem ldi (dr : RegId) (off9 : BitVec 9) : Statement (.ldi dr off9) := by
  refine word_ext fun k => ?_
  fin_cases k <;> simp only [encode, tableRow, opcodeValue, BitVec.getLsbD_and, BitVec.getLsbD_append] <;> simp

theorem ldr (dr : RegId) (baseR : RegId) (off6 : BitVec 6) : Statement (.ldr dr baseR off6) := by
  refine word_ext fun k => ?_
  fin_cases k <;> simp only [encode, tableRow, opcodeValue, BitVec.getLsbD_and, BitVec.getLsbD_append] <;> simp

theorem lea (dr : RegId) (off9 : BitVec 9) : Statement (.lea dr off9) := by
  refine word_ext fun k => ?_
  fin_cases k <;> simp only [encode, tableRow, opcodeValue, BitVec.getLsbD_and, BitVec.getLsbD_append] <;> simp

theorem st (sr : RegId) (off9 : BitVec 9) : Statement (.st sr off9) := by
  refine word_ext fun k => ?_
  fin_cases k <;> simp only [encode, tableRow, opcodeValue, BitVec.getLsbD_and, BitVec.getLsbD_append] <;> simp

theorem sti (sr : RegId) (off9 : BitVec 9) : Statement (.sti sr off9) := by
  refine word_ext fun k => ?_
  fin_cases k <;> simp only [encode, tableRow, opcodeValue, BitVec.getLsbD_and, BitVec.getLsbD_append] <;> simp

theorem str (sr : RegId) (baseR : RegId) (off6 : BitVec 6) : Statement (.str sr baseR off6) := by
  refine word_ext fun k => ?_
  fin_cases k <;> simp only [encode, tableRow, opcodeValue, BitVec.getLsbD_and, BitVec.getLsbD_append] <;> simp

theorem trap (payload : BitVec 12) : Statement (.trap payload) := by
  refine word_ext fun k => ?_
  fin_cases k <;> simp only [encode, tableRow, opcodeValue, BitVec.getLsbD_and, BitVec.getLsbD_append] <;> simp

theorem rsv8 : Statement .rsv8 := by
  simp [Statement, encode, tableRow, opcodeValue]

theorem rsv13 : Statement .rsv13 := by
  simp [Statement, encode, tableRow, opcodeValue]

end Sys2Proof.Laws.EncodesIntoItsRow
end

