-- ==== Sys2Proof/Tests/Slice0.lean ====
section
/-!
SUPPORT. Our own tests. Every expected result is the spec's: the rows of spec/95_test_vectors.md, the worked examples of the
rules, or hand calculation from a rule where a comment says so. The theorems named `witness_…` show, for the statement
they are named after, a concrete state and operands that meet its hypotheses.
-/

namespace Sys2Proof.Tests

open Sys2Proof.Machine

/-! ## Decoding: words written out bit by bit from R61's formats and R63's values -/

theorem test_decode_addReg : decodeTableWord 16 0b0001011001000010 = some (.addReg 3 1 2) := by decide
theorem test_decode_addReg_unused : decodeTableWord 16 0b0001011010011011 = some (.addReg 3 2 3) := by decide
theorem test_decode_addImm : decodeTableWord 16 0b0001001010111111 = some (.addImm 1 2 0b11111) := by decide
theorem test_decode_andReg : decodeTableWord 16 0b0101000001000010 = some (.andReg 0 1 2) := by decide
theorem test_decode_andImm : decodeTableWord 16 0b0101000001100000 = some (.andImm 0 1 0) := by decide
theorem test_decode_not : decodeTableWord 16 0b1001001010111111 = some (.not 1 2) := by decide
theorem test_decode_br : decodeTableWord 16 0b0000101000000011 = some (.br true false true 3) := by decide
theorem test_decode_br_zero : decodeTableWord 16 0x0000 = some (.br false false false 0) := by decide
theorem test_decode_jmp : decodeTableWord 16 0b1100000011000000 = some (.jmp 3) := by decide
theorem test_decode_jmp_unused : decodeTableWord 16 0xCEFF = some (.jmp 3) := by decide
theorem test_decode_jsrr : decodeTableWord 16 0b0100000010000000 = some (.jsrr 2) := by decide
theorem test_decode_jsr : decodeTableWord 16 0b0100110000000000 = some (.jsr 0b10000000000) := by decide
theorem test_decode_ld : decodeTableWord 16 0b0010001000000010 = some (.ld 1 2) := by decide
theorem test_decode_ldi : decodeTableWord 16 0b1010010000000100 = some (.ldi 2 4) := by decide
theorem test_decode_ldr : decodeTableWord 16 0b0110100010111111 = some (.ldr 4 2 0b111111) := by decide
theorem test_decode_lea : decodeTableWord 16 0b1110000111111110 = some (.lea 0 0b111111110) := by decide
theorem test_decode_st : decodeTableWord 16 0b0011011000000001 = some (.st 3 1) := by decide
theorem test_decode_sti : decodeTableWord 16 0b1011001000000010 = some (.sti 1 2) := by decide
theorem test_decode_str : decodeTableWord 16 0b0111101110000011 = some (.str 5 6 3) := by decide
theorem test_decode_trap : decodeTableWord 16 0b1111000000100101 = some (.trap 0x025) := by decide
theorem test_decode_rsv8 : decodeTableWord 16 0b1000101010111100 = some .rsv8 := by decide
theorem test_decode_rsv13 : decodeTableWord 16 0b1101111111111111 = some .rsv13 := by decide

/-- Words that an assembler writes (R73, R74): RET, HALT and NOT with its ones. -/
theorem test_encode_words :
    encode (.jmp 7) = 0xC1C0 ∧ encode (.trap 0x025) = 0xF025 ∧ encode (.not 1 2) = 0x92BF ∧
      encode (.jsrr 7) = 0x41C0 ∧ encode (.br false false false 0) = 0x0000 := by decide

/-! ## The toolkit (95_test_vectors.md 2.1) and the flags (2.2) -/

/-- What a checked primitive answers, as data to compare. -/
def value {α : Type} : Except FatalReason α → Option α
  | .ok v => some v
  | .error _ => none

theorem test_getBit : value (getBit 0x8000 15) = some true ∧ value (getBit 0x8000 14) = some false ∧
    value (getBit 0x0001 16) = none := by decide

theorem test_getBits : value (getBits 0x12BF 12 4) = some 0x1 ∧ value (getBits 0x12BF 6 3) = some 0x2 ∧
    value (getBits 0xABCD 0 16) = some 0xABCD ∧ value (getBits 0xABCD 12 8) = none ∧
    value (getBits 0xABCD 0 0) = none := by decide

theorem test_setBit_clearBit : value (setBit 0x0000 15) = some 0x8000 ∧ value (setBit 0x0000 16) = none ∧
    value (clearBit 0xFFFF 0) = some 0xFFFE ∧ value (clearBit 0x0000 3) = some 0x0000 := by decide

theorem test_signExtend : value (sext5 0b10000) = some 0xFFF0 ∧ value (sext6 0b011111) = some 0x001F ∧
    value (sext9 0x1FF) = some 0xFFFF ∧ value (sext11 0x400) = some 0xFC00 ∧
    value (signExtend 0x1234 16) = some 0x1234 ∧ value (signExtend 1 1) = some 0xFFFF ∧
    value (signExtend 0x0001 0) = none ∧ value (signExtend 0x0001 17) = none := by decide

theorem test_signPredicates : isNegative 0x8000 = true ∧ isNegative 0x7FFF = false ∧ isPositive 0x0000 = true ∧
    isPositive 0xFFFF = false := by decide

theorem test_condOf : condOf 0x0000 = .zro ∧ condOf 0x0001 = .pos ∧ condOf 0x7FFF = .pos ∧ condOf 0x8000 = .neg ∧
    condOf 0xFFFF = .neg := by decide

/-- R30 and R180's numbers, which no rule uses. -/
theorem test_condBits_causeNumber : condBits .neg = 0b100 ∧ condBits .zro = 0b010 ∧ condBits .pos = 0b001 ∧
    causeNumber (.reservedOpcode 8) = 1 ∧ causeNumber (.contractViolation .getBit) = 2 ∧
    causeNumber (.accessFault 0) = 3 := by decide

/-! ## The checks, and an ill-formed term for each -/

theorem test_wf_good : Memory.wf { words := 65536, cells := [(0x3000, 1), (0xFFFF, 2)] } = true := by decide
theorem test_wf_not_rising : Memory.wf { words := 65536, cells := [(2, 1), (1, 1)] } = false := by decide
theorem test_wf_repeated : Memory.wf { words := 65536, cells := [(1, 1), (1, 2)] } = false := by decide
theorem test_wf_unlisted_value : Memory.wf { words := 65536, cells := [(1, 0)] } = false := by decide
theorem test_wf_outside : Memory.wf { words := 16, cells := [(16, 1)] } = false := by decide
theorem test_wf_too_large : Memory.wf { words := 65537, cells := [] } = false := by decide
theorem test_wf_empty_array : Memory.wf { words := 0, cells := [] } = false := by decide

/-- The refusal of an image, if it is refused. -/
def refusalOf (memWords : Nat) (image : List Byte) : Option LaunchRefusal :=
  match checkImage memWords image with
  | .ok _ => none
  | .error e => some e

theorem test_image_good : refusalOf 65536 [0xFF, 0xFF, 0x12, 0x34] = none ∧ refusalOf 65536 [0x30, 0x00] = none := by decide
theorem test_image_odd : refusalOf 65536 [0x30, 0x00, 0x12] = some .oddBytes := by decide
theorem test_image_empty : refusalOf 65536 [] = some .noLoadAddress := by decide
theorem test_image_does_not_fit : refusalOf 65536 [0xFF, 0xFF, 0, 1, 0, 2] = some .doesNotFit := by decide
/-- An image with no word: accepted where its load address is at most MEM_WORDS (R204), refused above it (log 19). -/
theorem test_image_without_words : refusalOf 0x3000 [0x30, 0x00] = none ∧ refusalOf 0x2FFF [0x30, 0x00] = some .doesNotFit := by
  decide

/-! ## One step of each instruction (95_test_vectors.md 2.3 to 2.6) -/

/-- A machine about to fetch `w` at `a`. -/
def about (a : Word) (w : Nat) : State := { State.reset with pc := a }.withFetchWord 16 w

/-- A cell given a value. -/
def cell (s : State) (a : Nat) (v : Word) : State := { s with mem := { s.mem with cells := writeCell a v s.mem.cells } }

/-- The step answers a next state of which `p` holds. -/
def steps (s : State) (p : State → Bool) : Bool :=
  match step s with
  | .next t => p t
  | .fault _ => false
  | .refused _ => false

/-- The outcome is a next state. -/
def isNext (o : Result) : Bool :=
  match o with
  | .next _ => true
  | .fault _ => false
  | .refused _ => false

/-- The value of a cell, 0 if it does not exist. -/
def cellOf (t : State) (a : Word) : Word := (value (t.memRead a)).getD 0

theorem test_addReg_overflow : steps (((about 0x3000 0x1642).writeReg 1 0x7FFF).writeReg 2 1)
    (fun t => t.readReg 3 == 0x8000 && t.cc == .neg && t.pc == 0x3001) = true := by decide
theorem test_addReg_in_place : steps ((about 0x3000 0x1241).writeReg 1 0x1234)
    (fun t => t.readReg 1 == 0x2468 && t.cc == .pos) = true := by decide
theorem test_addImm_minus_one : steps ((about 0x3000 0x12BF).writeReg 2 10)
    (fun t => t.readReg 1 == 9 && t.cc == .pos && t.readReg 2 == 10) = true := by decide
theorem test_addImm_minus_16 : steps ((about 0x3000 0x1270).writeReg 1 0x0010)
    (fun t => t.readReg 1 == 0 && t.cc == .zro) = true := by decide
theorem test_andReg : steps (((about 0x3000 0x5042).writeReg 1 0x8000).writeReg 2 0xFFFF)
    (fun t => t.readReg 0 == 0x8000 && t.cc == .neg) = true := by decide
theorem test_andImm_sign_extended : steps ((about 0x3000 0x5070).writeReg 1 0x1234)
    (fun t => t.readReg 0 == 0x1230 && t.cc == .pos) = true := by decide
theorem test_andImm_zero : steps ((about 0x3000 0x5060).writeReg 1 0xFFFF)
    (fun t => t.readReg 0 == 0 && t.cc == .zro) = true := by decide
theorem test_not : steps ((about 0x3000 0x92BF).writeReg 2 0x00FF)
    (fun t => t.readReg 1 == 0xFF00 && t.cc == .neg) = true := by decide
theorem test_br_000_is_taken : steps ((about 0x3000 0x0005).writeCc .pos)
    (fun t => t.pc == 0x3006 && t.cc == .pos) = true := by decide
theorem test_br_not_taken : steps ((about 0x3000 0x0C03).writeCc .pos) (fun t => t.pc == 0x3001) = true := by decide

/-- The whole of R120's table, rows nzp = 000 to 111. -/
theorem test_branch_table :
    ([false, true].flatMap fun n => [false, true].flatMap fun z => [false, true].map fun p =>
      (taken n z p .neg, taken n z p .zro, taken n z p .pos)) =
    [(true, true, true), (false, false, true), (false, true, false), (false, true, true),
      (true, false, false), (true, false, true), (true, true, false), (true, true, true)] := by decide

theorem test_jmp : steps ((about 0x3000 0xCEFF).writeReg 3 0x4000) (fun t => t.pc == 0x4000) = true := by decide
theorem test_jsrr : steps ((about 0x3000 0x4080).writeReg 2 0x5000)
    (fun t => t.readReg 7 == 0x3001 && t.pc == 0x5000) = true := by decide
theorem test_jsrr_r7 : steps ((about 0x3000 0x41C0).writeReg 7 0x4000)
    (fun t => t.readReg 7 == 0x3001 && t.pc == 0x3001) = true := by decide
theorem test_jsr_back : steps (about 0x3000 0x4C00) (fun t => t.readReg 7 == 0x3001 && t.pc == 0x2C01) = true := by decide
theorem test_jsr_wraps : steps (about 0xFFFF 0x4801) (fun t => t.readReg 7 == 0x0000 && t.pc == 0x0001) = true := by decide
theorem test_ld : steps (cell (about 0x3000 0x2202) 0x3003 0x8001)
    (fun t => t.readReg 1 == 0x8001 && t.cc == .neg) = true := by decide
theorem test_ld_own_word : steps (about 0x3000 0x21FF) (fun t => t.readReg 0 == 0x21FF && t.cc == .pos) = true := by decide
theorem test_ldi : steps (cell (cell (about 0x3000 0xA404) 0x3005 0x3100) 0x3100 0x1234)
    (fun t => t.readReg 2 == 0x1234 && t.cc == .pos) = true := by decide
theorem test_ldr_wraps : steps (cell (about 0x3000 0x68BF) 0xFFFF 0x0042)
    (fun t => t.readReg 4 == 0x0042 && t.cc == .pos) = true := by decide
theorem test_ldr_base_is_destination : steps (cell ((about 0x3000 0x6240).writeReg 1 0x4000) 0x4000 0x7777)
    (fun t => t.readReg 1 == 0x7777) = true := by decide
theorem test_lea : steps (about 0x3000 0xE1FE) (fun t => t.readReg 0 == 0x2FFF && t.cc == .pos) = true := by decide
theorem test_lea_wraps : steps (about 0xFFFF 0xE000)
    (fun t => t.readReg 0 == 0 && t.cc == .zro && t.pc == 0) = true := by decide
theorem test_st : steps (((about 0x3000 0x3601).writeReg 3 0xBEEF).writeCc .neg)
    (fun t => cellOf t 0x3002 == 0xBEEF && t.cc == .neg) = true := by decide
theorem test_sti : steps (cell ((about 0x3000 0xB202).writeReg 1 0x0042) 0x3003 0x4000)
    (fun t => cellOf t 0x4000 == 0x0042 && cellOf t 0x3003 == 0x4000) = true := by decide
theorem test_sti_over_pointer : steps (cell ((about 0x3000 0xB202).writeReg 1 0x0042) 0x3003 0x3003)
    (fun t => cellOf t 0x3003 == 0x0042) = true := by decide
theorem test_str : steps (((about 0x3000 0x7B83).writeReg 5 0x1111).writeReg 6 0x5000)
    (fun t => cellOf t 0x5003 == 0x1111) = true := by decide
theorem test_str_same_register : steps ((about 0x3000 0x7240).writeReg 1 0x6000)
    (fun t => cellOf t 0x6000 == 0x6000) = true := by decide

/-- TRAP runs from reset, whatever the handler answers. -/
theorem test_trap_runs : isNext (step (State.reset.withFetchWord 16 0xF025)) = true := by decide

/-- A handler that answers with no call: the engine itself has changed nothing but PC (R171). -/
theorem test_trap_engine_part :
    (State.reset.runHandler [] .continue).status = .running ∧ (State.reset.runHandler [] .haltOrError).status = .stopped := by
  decide

/-- The handler's calls take effect in order (R170, R171). -/
theorem test_trap_handler_calls :
    let t := State.reset.runHandler [.regWrite 7 5, .memWrite 0x3FFF 8, .memWrite 0x3FFF 9, .pcWrite 1, .ccWrite .neg] .continue
    t.readReg 7 = 5 ∧ cellOf t 0x3FFF = 9 ∧ t.pc = 1 ∧ t.cc = .neg ∧ t.status = .running := by
  decide

/-- A handler's access out of range is fatal, and none of the handler's writes is kept (R183, R187, D13). -/
theorem test_trap_handler_access_fault :
    let s := { State.reset with mem := { words := 0x4000, cells := [] } }
    s.runHandler [.regWrite 7 5, .memWrite 0x3FFF 9, .memRead 0x4000, .pcWrite 1] .haltOrError =
      { s with status := .fatal (.accessFault 0x4000) } := by
  decide

theorem test_rsv8 : steps (about 0x3000 0x8ABC)
    (fun t => t.status == .fatal (.reservedOpcode 0x8) && t.pc == 0x3001) = true := by decide
theorem test_rsv13 : steps (about 0x3000 0xD000)
    (fun t => t.status == .fatal (.reservedOpcode 0xD) && t.pc == 0x3001 && t.cc == .zro) = true := by decide

/-- By hand from R43, R187: a load out of a small memory leaves PC at fetch address + 1; a fetch out of it, at the fetch
address. -/
theorem test_access_faults :
    steps { about 0x3000 0x2202 with mem := { words := 0x3003, cells := [(0x3000, 0x2202)] } }
      (fun t => t.status == .fatal (.accessFault 0x3003) && t.pc == 0x3001 && t.readReg 1 == 0) = true ∧
    steps { about 0x3000 0 with mem := { words := 0x3000, cells := [] } }
      (fun t => t.status == .fatal (.accessFault 0x3000) && t.pc == 0x3000) = true := by decide

/-- R203, R204: the first two words of 95_test_vectors.md's program P1, loaded; ENTRY is the load address by default. -/
def paramsP1 : LaunchParams :=
  { initR := Vector.replicate 8 0xAAAA
    initCc := .neg
    entry := none
    initMem := { words := 65536, cells := [(0x3002, 7)] }
    trapHang := none }

def launchedP1 : Option State :=
  match launch paramsP1 [0x30, 0x00, 0x50, 0x20, 0x12, 0x25] with
  | .ok s => some s
  | .error _ => none

theorem test_launch : (launchedP1.map fun s => (s.pc, s.cc, s.readReg 7, cellOf s 0x3000, cellOf s 0x3001, cellOf s 0x3002)) =
    some (0x3000, .neg, 0xAAAA, 0x5020, 0x1225, 7) := by decide

/-! ## Witnesses: for each statement with hypotheses, data that meets them all -/

/-- `about 0x3000 w` with a small memory: MEM_WORDS = 0x3001, so that the fetch is the last access in range. -/
def small (w : Nat) : State := { about 0x3000 w with mem := { words := 0x3001, cells := [(0x3000, tableWord 16 w)] } }

theorem witness_GetBitSelectsOneBit : (15 : Nat) < 16 ∧ (16 : Nat) ≤ 16 := by decide
theorem witness_GetBitsReadsTheField : (12 : Nat) < 16 ∧ 1 ≤ 4 ∧ 4 ≤ 16 ∧ 12 + 4 ≤ 16 := by decide
theorem witness_GetBitsRecoversAPlacedField : 1 ≤ 5 ∧ 11 + 5 ≤ 16 ∧ (0x1F : Word).toNat < 2 ^ 5 := by decide
theorem witness_SetAndClearBitChangeOneBit : (15 : Nat) < 16 ∧ (0 : Nat) < 16 := by decide
theorem witness_SignExtendGivesTheSignedValue : (1 : Nat) ≤ 1 ∧ 1 ≤ 16 ∧ (1 : Nat) ≤ 16 ∧ 16 ≤ 16 := by decide
/-- Each clause at its boundary. -/
theorem witness_ToolkitFailsLoudlyOutsideItsPreconditions :
    (16 : Nat) ≤ 16 ∧ (15 : Nat) < 16 ∧ (0 : Nat) = 0 ∧ 16 < 12 + 5 ∧ 16 < 17 ∧ 12 + 4 ≤ 16 ∧ (1 : Nat) ≤ 16 := by decide
theorem witness_SetccClassifiesTheValue :
    (0x0000 : Word).toNat = 0 ∧ 0x8000 ≤ (0x8000 : Word).toNat ∧ 1 ≤ (0x0001 : Word).toNat ∧
      (0x7FFF : Word).toNat ≤ 0x7FFF := by decide
theorem witness_DecoderIsTotalOnAllWords :
    value (decode 0x1000) = some (.addReg 0 0 0) ∧ value (decode 0x1FDF) = some (.addReg 7 7 7) ∧
      (0x1000 : Word).extractLsb' 12 4 = (0x1FDF : Word).extractLsb' 12 4 ∧
      (0x1000 : Word).getLsbD 5 = (0x1FDF : Word).getLsbD 5 ∧
      (0x4800 : Word).extractLsb' 12 4 = (0x4FFF : Word).extractLsb' 12 4 ∧
      (0x4800 : Word).getLsbD 11 = (0x4FFF : Word).getLsbD 11 := by decide
theorem witness_EveryWordLiesInExactlyOneTableRow :
    value (decode 0x1020) = some (.addImm 0 0 0) ∧
      (0x1020 : Word) &&& (tableRow (.addImm 1 1 1)).mask = (tableRow (.addImm 1 1 1)).bits := by decide
theorem witness_DecodedRegisterFieldsAreTheSpecsBits : value (decode 0x7B83) = some (.str 5 6 3) := by decide
theorem witness_ImmediatesAreSignExtendedFields : value (decode 0x68BF) = some (.ldr 4 2 0b111111) := by decide
theorem witness_UnusedBitsAreIgnored :
    value (decode 0xC0C0) = some (.jmp 3) ∧
      (0xCEFF : Word) &&& ~~~(unusedBits (.jmp 3)) = 0xC0C0 &&& ~~~(unusedBits (.jmp 3)) := by decide
theorem witness_EncodeReadsBackEveryDecodedWord : value (decode 0x41C0) = some (.jsrr 7) := by decide

/-- Both forms. -/
theorem witness_AddIsOneSumForBothSigns : isNext (exec (.addReg 3 1 2) State.reset) = true ∧
    value (sext5 0b10000) = some 0xFFF0 ∧ isNext (exec (.addImm 3 1 0b10000) State.reset) = true := by decide
theorem witness_SubtractionInThreeInstructions : (1 : RegId) ≠ 2 := by decide
theorem witness_LoadPcRelative : value (State.reset.memRead (0 + (0x1FF : BitVec 9).signExtend 16)) = some 0 := by decide
theorem witness_LoadIndirect :
    let s := cell State.reset 2 0xFFFF
    value (s.memRead (s.pc + (2 : BitVec 9).signExtend 16)) = some 0xFFFF ∧ value (s.memRead 0xFFFF) = some 0 := by decide
theorem witness_LoadBaseOffset :
    value (State.reset.memRead (State.reset.readReg 2 + (0b111111 : BitVec 6).signExtend 16)) = some 0 := by decide
theorem witness_StorePcRelative :
    value (State.reset.eaPcRel 0x1FF) = some 0xFFFF ∧ (0xFFFF : Word).toNat < State.reset.mem.words := by decide
theorem witness_StoreIndirect :
    let s := cell State.reset 2 0xFFFF
    value (s.eaPcRel 2) = some 2 ∧ value (s.memRead 2) = some 0xFFFF ∧ (0xFFFF : Word).toNat < s.mem.words := by decide
theorem witness_StoreBaseOffset :
    value (State.reset.eaBase 6 0b111111) = some 0xFFFF ∧ (0xFFFF : Word).toNat < State.reset.mem.words := by decide
/-- The three clauses: an address, a pointer and a base address, each the first one out of range. -/
theorem witness_DataAccessOutOfRangeIsFatal :
    value ((small 0x2000).eaPcRel 1) = some 0x3001 ∧ (small 0x2000).mem.words ≤ (0x3001 : Word).toNat ∧
      (let s := cell (small 0x2000) 1 0x3001
       value ({ s with pc := 0 }.eaPcRel 1) = some 1 ∧ value (s.memRead 1) = some 0x3001 ∧
         s.mem.words ≤ (0x3001 : Word).toNat) ∧
      value (((small 0x2000).writeReg 1 0x3001).eaBase 1 0) = some 0x3001 := by decide
theorem witness_MemoryReadsTheLatestWrite :
    (value (State.reset.memWrite 0xFFFF 5)).isSome = true ∧ (value (State.reset.memWrite 0 0)).isSome = true := by decide
theorem witness_TrapHandsTheRawWordToTheHandler : State.reset.trapHang ≠ some State.reset.trapCalls := by decide
theorem witness_TrapIsStuckWhereTheHandlerNeverReturns :
    { State.reset with trapHang := some 0 }.trapHang = some State.reset.trapCalls := by decide
/-- Each clause: a call at the last cell, a call at the first address out of range, calls that succeed, calls that do not, and
calls that leave a register, PC, CC and a cell unnamed. -/
theorem witness_HandlersCallsTakeEffectInOrder :
    callAddress (.memRead 0x3000) = some 0x3000 ∧ (0x3000 : Word).toNat < (small 0).mem.words ∧
      callAddress (.memWrite 0x3001 1) = some 0x3001 ∧ (small 0).mem.words ≤ (0x3001 : Word).toNat ∧
      (value ((small 0).runCalls [.regWrite 7 5, .memWrite 0x3000 9])).isSome = true ∧
      (value ((small 0).runCalls [.regWrite 7 5, .memRead 0x3001])).isSome = false ∧
      (∀ v, AccessorCall.regWrite 3 v ∉ [AccessorCall.regWrite 7 5]) ∧
      (∀ v, AccessorCall.pcWrite v ∉ [AccessorCall.regWrite 7 5]) ∧
      (∀ c, AccessorCall.ccWrite c ∉ [AccessorCall.regWrite 7 5]) ∧
      (∀ v, AccessorCall.memWrite 9 v ∉ [AccessorCall.regWrite 7 5]) := by
  refine ⟨by decide, by decide, by decide, by decide, by decide, by decide, ?_⟩
  simp
theorem witness_HandlersSignalDecidesTheStatus :
    (∀ a, AccessorCall.memRead a ∈ [AccessorCall.memRead 0xFFFF] → a.toNat < State.reset.mem.words) ∧
      (∀ a v, AccessorCall.memWrite a v ∈ [AccessorCall.memRead 0xFFFF] → a.toNat < State.reset.mem.words) := by
  simp [State.reset, Config.memWords]
theorem witness_StepRunsTheDecodedInstruction :
    (about 0x3000 0x1642).status = .running ∧ value ((about 0x3000 0x1642).memRead 0x3000) = some 0x1642 ∧
      value (decode 0x1642) = some (.addReg 3 1 2) := by decide
/-- The three clauses: a fetch at the first address out of range, and the two ends of a run. -/
theorem witness_NoTickWithoutAFetchOrARunningMachine :
    { small 0 with pc := 0x3001 }.status = .running ∧ (small 0).mem.words ≤ (0x3001 : Word).toNat ∧
      { State.reset with status := .stopped }.status = .stopped ∧
      (State.reset.raiseFatal (.reservedOpcode 8)).status = .fatal (.reservedOpcode 8) := by decide
theorem witness_OnlyTheNamedRegisterAndStoresWrite :
    (∀ payload, Instr.jsr 5 ≠ .trap payload) ∧ isNext (exec (.jsr 5) State.reset) = true ∧
      writesMemory (.jsr 5) = false := by
  refine ⟨by simp, by decide, by decide⟩
/-- The two clauses: an instruction that does not update CC, and one that does. -/
theorem witness_OnlyResultInstructionsWriteCc :
    updatesCc (.jsr 5) = false ∧ isNext (exec (.jsr 5) State.reset) = true ∧ updatesCc (.lea 0 0) = true ∧
      steps (about 0x3000 0xE000) (fun t => t.status == .running) = true := by decide
theorem witness_OnlyBranchesReadCc :
    (∀ n z p off9, Instr.lea 0 0 ≠ .br n z p off9) ∧ (∀ payload, Instr.lea 0 0 ≠ .trap payload) ∧
      isNext (exec (.lea 0 0) State.reset) = true := by
  refine ⟨by simp, by simp, by decide⟩
theorem witness_UnreadRegistersDoNotMatter :
    (7 : RegId) ∉ sources (.addReg 3 1 2) ∧ destination (.addReg 3 1 2) ≠ some 7 ∧
      isNext (exec (.addReg 3 1 2) State.reset) = true := by decide
theorem witness_ProgramCounterAtTheEndOfATick :
    value ((about 0xFFFF 0x4801).memRead 0xFFFF) = some 0x4801 ∧ value (decode 0x4801) = some (.jsr 1) ∧
      isNext (step (about 0xFFFF 0x4801)) = true := by decide
theorem witness_FatalEventsArePrecise :
    steps (about 0x3000 0xD000) (fun t => t.status == .fatal (.reservedOpcode 0xD)) = true ∧
      steps { small 0 with pc := 0x3001 } (fun t => t.status == .fatal (.accessFault 0x3001)) = true := by decide
theorem witness_CausesOfTheEndOfARun :
    (about 0x3000 0x8ABC).status = .running ∧ value ((about 0x3000 0x8ABC).memRead 0x3000) = some 0x8ABC ∧
      steps (about 0x3000 0x8ABC) (fun t => t.status == .fatal (.reservedOpcode 0x8)) = true := by decide
theorem witness_EngineNeverViolatesTheToolkitsContract :
    (∀ r, (about 0x3000 0xD000).status = .fatal r → r.isContractViolation = false) ∧
      isNext (step (about 0x3000 0xD000)) = true :=
  ⟨fun _ h => (by cases h), by decide⟩
/-- Both clauses: a running machine is safe, and its word is not reserved. -/
theorem witness_FullMemoryFaultsOnlyOnReservedOpcodes :
    (about 0x3000 0x3601).mem.words = 65536 ∧ isNext (step (about 0x3000 0x3601)) = true ∧
      (about 0x3000 0x3601).status = .running ∧ (about 0x3000 0x3601).safe ∧
      value ((about 0x3000 0x3601).memRead 0x3000) = some 0x3601 ∧ value (decode 0x3601) = some (.st 3 1) :=
  ⟨by decide, by decide, by decide, fun _ h => (by cases h), by decide, by decide⟩
theorem witness_EveryStepKeepsTheMemorysForm :
    (about 0x3000 0x3601).mem.wf = true ∧ isNext (step (about 0x3000 0x3601)) = true := by decide
/-- Both outcomes: an instruction that runs, and a TRAP at the call that never returns. -/
theorem witness_RunningMachineAlwaysSteps :
    (about 0x3000 0x1642).status = .running ∧ isNext (step (about 0x3000 0x1642)) = true ∧
      isNext (step { about 0x3000 0xF025 with trapHang := some 0 }) = false := by decide
/-- ST, STI and STR, each onto the cell that PC names next (`n = 0`), and a later fetch: ST two cells on, one tick between. -/
theorem witness_LaterFetchesRunTheStoredWord :
    (let s := (about 0x3000 0x3200).writeReg 1 0x1021
     value (s.memRead s.pc) = some 0x3200 ∧ value (decode 0x3200) = some (.st 1 0) ∧
      value (s.incPc.eaPcRel 0) = some 0x3001 ∧ (0x3001 : Word).toNat < s.mem.words ∧
      steps s (fun t => t.status == .running && t.pc == 0x3001 && cellOf t 0x3001 == 0x1021) = true) ∧
    (let s := cell (about 0x3000 0xB201) 0x3002 0x3001
     value (decode 0xB201) = some (.sti 1 1) ∧ value (s.incPc.eaIndirect 1) = some 0x3001 ∧
      steps s (fun t => t.pc == 0x3001) = true) ∧
    (let s := (about 0x3000 0x7240).writeReg 1 0x3001
     value (decode 0x7240) = some (.str 1 1 0) ∧ value (s.incPc.eaBase 1 0) = some 0x3001 ∧
      steps s (fun t => t.pc == 0x3001) = true) ∧
    (let s := (cell (about 0x3000 0x3201) 0x3001 0x5020).writeReg 1 0x1021
     steps s (fun t => steps t fun u => u.pc == 0x3002 && cellOf t 0x3002 == 0x1021 && cellOf u 0x3002 == 0x1021) = true) ∧
    value (decode 0x1021) = some (.addImm 0 0 1) := by decide
/-- Each refusal: an odd file, an empty one, and one that runs off the top of memory. -/
theorem witness_LaunchRefusesMalformedImages :
    refusalOf 65536 [0] = some .oddBytes ∧ refusalOf 65536 [] = some .noLoadAddress ∧
      imageWords [0xFF, 0xFF, 0, 1, 0, 2] = [0xFFFF, 1, 2] ∧ 65536 < (0xFFFF : Word).toNat + [(1 : Word), 2].length := by
  decide
/-- The image fills the array to its last cell; the cells below it are outside. -/
theorem witness_LaunchLoadsTheImage :
    (0xFFFE : Word).toNat + [(1 : Word), 2].length ≤ State.reset.mem.words ∧ State.reset.mem.words ≤ 65536 ∧
      [(1 : Word), 2][1]? = some 2 ∧ (0xFFFD : Word).toNat < (0xFFFE : Word).toNat ∧
      (0xFFFD : Word).toNat < State.reset.mem.words := by decide

end Sys2Proof.Tests
end

/-! SUPPORT. The decoder's answer as a function of the opcode and the word, and the statements on the encoding
(R64 to R72). -/

namespace Sys2Proof

open Machine

/-- The instruction that a word of the opcode class `o` stands for: the fields of `o`'s format, read as bits of the word
(R61, R64 to R68). `decode_eq_ok` ties it to the decoder. -/
def instrOfClass (w : Word) : Opcode → Instr
  | .br => .br (w.getLsbD 11) (w.getLsbD 10) (w.getLsbD 9) (w.extractLsb' 0 9)
  | .add =>
    if w.getLsbD 5 then .addImm (w.extractLsb' 9 3) (w.extractLsb' 6 3) (w.extractLsb' 0 5)
    else .addReg (w.extractLsb' 9 3) (w.extractLsb' 6 3) (w.extractLsb' 0 3)
  | .ld => .ld (w.extractLsb' 9 3) (w.extractLsb' 0 9)
  | .st => .st (w.extractLsb' 9 3) (w.extractLsb' 0 9)
  | .jsr => if w.getLsbD 11 then .jsr (w.extractLsb' 0 11) else .jsrr (w.extractLsb' 6 3)
  | .and =>
    if w.getLsbD 5 then .andImm (w.extractLsb' 9 3) (w.extractLsb' 6 3) (w.extractLsb' 0 5)
    else .andReg (w.extractLsb' 9 3) (w.extractLsb' 6 3) (w.extractLsb' 0 3)
  | .ldr => .ldr (w.extractLsb' 9 3) (w.extractLsb' 6 3) (w.extractLsb' 0 6)
  | .str => .str (w.extractLsb' 9 3) (w.extractLsb' 6 3) (w.extractLsb' 0 6)
  | .rsv8 => .rsv8
  | .not => .not (w.extractLsb' 9 3) (w.extractLsb' 6 3)
  | .ldi => .ldi (w.extractLsb' 9 3) (w.extractLsb' 0 9)
  | .sti => .sti (w.extractLsb' 9 3) (w.extractLsb' 0 9)
  | .jmp => .jmp (w.extractLsb' 6 3)
  | .rsv13 => .rsv13
  | .lea => .lea (w.extractLsb' 9 3) (w.extractLsb' 0 9)
  | .trap => .trap (w.extractLsb' 0 12)

/-- R72: what the decoder answers for each of the 65536 words: the instruction of the class that `[15:12]` names. -/
theorem decode_eq_ok (w : Word) : decode w = .ok (instrOfClass w (opcodeOf (w.extractLsb' 12 4))) := by
  simp only [decode, opcodeField_ok, bind, Except.bind]
  cases opcodeOf (w.extractLsb' 12 4) with
  | br => exact decodeBr_ok w
  | add => exact decodeOperate_ok w .addReg .addImm
  | ld => exact decodePcRel_ok w .ld
  | st => exact decodePcRel_ok w .st
  | jsr => exact decodeJsr_ok w
  | and => exact decodeOperate_ok w .andReg .andImm
  | ldr => exact decodeBase_ok w .ldr
  | str => exact decodeBase_ok w .str
  | rsv8 => rfl
  | not => exact decodeNot_ok w
  | ldi => exact decodePcRel_ok w .ldi
  | sti => exact decodePcRel_ok w .sti
  | jmp => exact decodeJmp_ok w
  | rsv13 => rfl
  | lea => exact decodePcRel_ok w .lea
  | trap => exact decodeTrap_ok w

theorem decode_eq_ok_iff (w : Word) (i : Instr) :
    decode w = .ok i ↔ instrOfClass w (opcodeOf (w.extractLsb' 12 4)) = i := by
  rw [decode_eq_ok, Except.ok.injEq]

/-- R72: within one opcode class, the table row depends on `[5]` under ADD and AND, on `[11]` under JSR/JSRR, and on no
other bit of the word. -/
theorem tableRow_instrOfClass_congr {w w' : Word} {o : Opcode}
    (h5 : o = .add ∨ o = .and → w.getLsbD 5 = w'.getLsbD 5) (h11 : o = .jsr → w.getLsbD 11 = w'.getLsbD 11) :
    tableRow (instrOfClass w o) = tableRow (instrOfClass w' o) := by
  cases o with
  | add => simp only [instrOfClass, h5 (.inl rfl)]; split <;> rfl
  | and => simp only [instrOfClass, h5 (.inr rfl)]; split <;> rfl
  | jsr => simp only [instrOfClass, h11 rfl]; split <;> rfl
  | _ => rfl

/-- R65: a field of at most 16 bits keeps its signed value when it is extended, so its range is that of its
own width. -/
theorem toInt_signExtend_mem_range {k : Nat} (f : BitVec k) (hk : k ≤ 16) :
    (f.signExtend 16).toInt = f.toInt ∧
      -2 ^ (k - 1) ≤ (f.signExtend 16).toInt ∧ (f.signExtend 16).toInt ≤ 2 ^ (k - 1) - 1 := by
  have hval : (f.signExtend 16).toInt = f.toInt := BitVec.toInt_signExtend_of_le hk
  rw [hval]
  exact ⟨rfl, BitVec.le_toInt f, Int.le_sub_one_of_lt BitVec.toInt_lt⟩

/-- Settles O8: the decoder's answer is a function of the class and the word, and within a class only the selector bit
of ADD, AND or JSR/JSRR tells two forms apart. -/
theorem decoderIsTotalOnAllWords : Obligations.DecoderIsTotalOnAllWords := by
  refine ⟨fun w => ⟨_, decode_eq_ok w⟩, fun w w' i i' hi hi' hop h5 h11 => ?_⟩
  obtain rfl := (decode_eq_ok_iff w i).1 hi
  obtain rfl := (decode_eq_ok_iff w' i').1 hi'
  rw [← hop]
  exact tableRow_instrOfClass_congr h5 h11

/-- Settles O10, class by class: `instrOfClass` takes each register and branch bit from the place the spec names. -/
theorem decodedRegisterFieldsAreTheSpecsBits : Obligations.DecodedRegisterFieldsAreTheSpecsBits := by
  intro w i hi
  obtain rfl := (decode_eq_ok_iff w i).1 hi
  cases opcodeOf (w.extractLsb' 12 4) with
  | add | and => cases hb : w.getLsbD 5 <;> simp only [instrOfClass, hb, if_true, Bool.false_eq_true, if_false, and_self]
  | jsr => cases hb : w.getLsbD 11 <;> simp only [instrOfClass, hb, if_true, Bool.false_eq_true, if_false]
  | br | not | ldr | str => simp [instrOfClass]
  | ld | st | ldi | sti | jmp | lea | trap => rfl
  | rsv8 | rsv13 => trivial

/-- Settles O11: the fields class by class, then the signed value and the range of each width. -/
theorem immediatesAreSignExtendedFields : Obligations.ImmediatesAreSignExtendedFields := by
  refine ⟨fun w i hi => ?_, fun f => ⟨_, sext5_ok f, toInt_signExtend_mem_range f (by omega)⟩,
    fun f => ⟨_, sext6_ok f, toInt_signExtend_mem_range f (by omega)⟩,
    fun f => ⟨_, sext9_ok f, toInt_signExtend_mem_range f (by omega)⟩,
    fun f => ⟨_, sext11_ok f, toInt_signExtend_mem_range f (by omega)⟩⟩
  obtain rfl := (decode_eq_ok_iff w i).1 hi
  cases opcodeOf (w.extractLsb' 12 4) with
  | add | and => cases hb : w.getLsbD 5 <;> simp only [instrOfClass, hb, if_true, Bool.false_eq_true, if_false]
  | jsr => cases hb : w.getLsbD 11 <;> simp only [instrOfClass, hb, if_true, Bool.false_eq_true, if_false]
  | br | ld | st | ldr | str | ldi | sti | lea => rfl
  | not | jmp | trap | rsv8 | rsv13 => trivial

end Sys2Proof

/-! SUPPORT. The engine: the condition-code classes as ranges, a handler's answer with every call in range, and one tick of
a running machine; and the statements on the engine (R81, R87, R89, R92). -/

namespace Sys2Proof

open Machine

theorem getBit_error (w : Word) {n : Nat} (h : 16 ≤ n) : getBit w n = .error (.contractViolation .getBit) :=
  if_neg (Nat.not_lt.2 h)

/-- R85: bit 15 read as a range of values. -/
theorem isNegative_iff (v : Word) : isNegative v = true ↔ 0x8000 ≤ v.toNat := by
  rw [isNegative, ← BitVec.msb_eq_getLsbD_last v, BitVec.msb_eq_decide, decide_eq_true_iff]

/-- R87: the three classes as ranges of the value. -/
theorem condOf_eq_zro {v : Word} (h : v.toNat = 0) : condOf v = .zro :=
  if_pos (BitVec.eq_of_toNat_eq h)

theorem condOf_of_pos {v : Word} (h : 0 < v.toNat) : condOf v = if isNegative v then .neg else .pos :=
  if_neg fun hv => h.ne' (congrArg BitVec.toNat hv)

theorem condOf_eq_neg {v : Word} (h : 0x8000 ≤ v.toNat) : condOf v = .neg := by
  rw [condOf_of_pos (by omega), if_pos ((isNegative_iff v).2 h)]

theorem condOf_eq_pos {v : Word} (h1 : 1 ≤ v.toNat) (h2 : v.toNat ≤ 0x7FFF) : condOf v = .pos := by
  rw [condOf_of_pos h1, if_neg fun hn => by have := (isNegative_iff v).1 hn; omega]

/-- R43: an accessor call whose address, if it has one, is in range succeeds. -/
theorem accessorCall_ok_of_inRange {s : State} {c : AccessorCall}
    (h : ∀ a, callAddress c = some a → a.toNat < s.mem.words) : ∃ t, s.accessorCall c = .ok t := by
  cases c with
  | regWrite id v => exact ⟨_, rfl⟩
  | pcWrite v => exact ⟨_, rfl⟩
  | ccWrite x => exact ⟨_, rfl⟩
  | memRead a => exact ⟨s, by simp [State.accessorCall, State.memRead, h a rfl, Except.map]⟩
  | memWrite a v => exact ⟨_, if_pos (h a rfl)⟩

/-- R170: the handler returns where no call is out of range: each call leaves the size of memory, so the calls after it are
still in range. -/
theorem runCalls_ok_of_inRange :
    ∀ {calls : List AccessorCall} {s : State},
      (∀ c ∈ calls, ∀ a, callAddress c = some a → a.toNat < s.mem.words) → ∃ t, s.runCalls calls = .ok t
  | [], s, _ => ⟨s, rfl⟩
  | c :: rest, s, h => by
    obtain ⟨s', hc⟩ := accessorCall_ok_of_inRange (h c List.mem_cons_self)
    have hwords : s'.mem.words = s.mem.words := (accessorCall_keeps hc).1
    rw [runCalls_cons_ok hc]
    exact runCalls_ok_of_inRange fun d hd a ha => hwords ▸ h d (List.mem_cons_of_mem c hd) a ha

/-- R171: a handler that returns leaves the state of its last call, the call counted, and its signal decides the status. -/
theorem runHandler_of_runCalls_ok {s t : State} {calls : List AccessorCall} (h : s.runCalls calls = .ok t)
    (sig : Signal) : s.runHandler calls sig = { t with trapCalls := t.trapCalls + 1 }.complete sig := by
  simp [State.runHandler, h]

/-- R89, R90: a running machine whose fetch is in range runs the decoded instruction, PC already incremented. -/
theorem step_eq_exec {s : State} {w : Word} {i : Instr} (hrun : s.status = .running)
    (hfetch : s.memRead s.pc = .ok w) (hdecode : decode w = .ok i) : step s = exec i s.incPc := by
  rw [step_running hrun, State.tick, hfetch, orFatal_ok, hdecode, orFatal_ok]

/-- Settles O42: with every call in range the handler returns some state `t`, and both signals complete that same `t`, whose
status is the one the handler was called with. -/
theorem handlersSignalDecidesTheStatus : Obligations.HandlersSignalDecidesTheStatus := by
  intro calls s hreads hwrites
  have hinRange : ∀ c ∈ calls, ∀ a, callAddress c = some a → a.toNat < s.mem.words := by
    intro c hc a ha
    cases c with
    | regWrite | pcWrite | ccWrite => cases ha
    | memRead b => exact Option.some.inj ha ▸ hreads b hc
    | memWrite b v => exact Option.some.inj ha ▸ hwrites b v hc
  obtain ⟨t, ht⟩ := runCalls_ok_of_inRange hinRange
  obtain ⟨_, hstatus, _, _⟩ := runCalls_keeps ht
  rw [runHandler_of_runCalls_ok ht, runHandler_of_runCalls_ok ht]
  exact ⟨hstatus, rfl⟩

/-- Settles O1: the two branches of `get_bit`'s range check. -/
theorem getBitSelectsOneBit : Obligations.GetBitSelectsOneBit :=
  fun w n => ⟨getBit_ok w n, getBit_error w⟩

/-- Settles O7: the class of each range, and `setcc` as a write of CC alone. -/
theorem setccClassifiesTheValue : Obligations.SetccClassifiesTheValue :=
  fun _ _ => ⟨condOf_eq_zro, condOf_eq_neg, condOf_eq_pos, fun _ _ => rfl, fun _ _ => rfl, rfl, rfl, rfl, rfl, rfl⟩

/-- Settles O44: the tick of a running machine, with `incPc` written out. -/
theorem stepRunsTheDecodedInstruction : Obligations.StepRunsTheDecodedInstruction :=
  fun _ _ _ => step_eq_exec

end Sys2Proof

/-! SUPPORT. Control transfer: the branch condition (R120). -/

namespace Sys2Proof

open Machine

/-- R120: one requested flag matches the current condition code. -/
theorem requested_and_matches_iff (flag : Bool) (c d : Cond) : (flag && c == d) = true ↔ flag = true ∧ c = d := by
  rw [Bool.and_eq_true, beq_iff_eq]

/-- R120, C5: no flag is requested. -/
theorem noneRequested_iff (n z p : Bool) : (!n && !z && !p) = true ↔ n = false ∧ z = false ∧ p = false := by
  simp only [Bool.and_eq_true, Bool.not_eq_true', and_assoc]

/-- Settles O24: `taken` is a disjunction of the three flags' matches and the unconditional case, each read by its own
lemma. -/
theorem branchCondition : Obligations.BranchCondition := by
  intro n z p c
  rw [taken, Bool.or_eq_true, Bool.or_eq_true, Bool.or_eq_true, requested_and_matches_iff,
    requested_and_matches_iff, requested_and_matches_iff, noneRequested_iff, or_assoc, or_assoc]

end Sys2Proof

/-! SUPPORT. The addressing modes as integers: a word plus a sign-extended field, modulo 2^16 (R140, R141). -/

namespace Sys2Proof

open Machine

/-- A word's sum with a second word, read as signed: a negative addend stands 65536 below its unsigned reading, which the
reduction takes away again. -/
theorem toNat_add_eq_add_toInt_emod (w d : Word) : ((w + d).toNat : Int) = ((w.toNat : Int) + d.toInt) % 65536 := by
  rw [BitVec.toNat_add, BitVec.toInt_eq_toNat_cond]
  split
  case isTrue => omega
  case isFalse => omega

/-- R140, R141, R65: the sum of a base word and an offset field modulo 2^16, and how far a field of its width reaches. -/
theorem toNat_add_signExtend_and_reach {k : Nat} (w : Word) (f : BitVec k) (hk : k ≤ 16) :
    ((w + f.signExtend 16).toNat : Int) = ((w.toNat : Int) + f.toInt) % 65536 ∧
      -2 ^ (k - 1) ≤ f.toInt ∧ f.toInt ≤ 2 ^ (k - 1) - 1 := by
  obtain ⟨hval, hreach⟩ := toInt_signExtend_mem_range f hk
  rw [toNat_add_eq_add_toInt_emod, hval]
  exact ⟨rfl, hval ▸ hreach⟩

/-- Settles O29: both modes answer their base plus the extended offset, so one fact about such sums serves the PC with 9
bits and a register with 6. -/
theorem effectiveAddressesWrapModulo65536 : Obligations.EffectiveAddressesWrapModulo65536 := by
  intro s baseR off9 off6
  exact ⟨⟨_, eaPcRel_ok s off9, toNat_add_signExtend_and_reach s.pc off9 (by omega)⟩,
    ⟨_, eaBase_ok s baseR off6, toNat_add_signExtend_and_reach (s.readReg baseR) off6 (by omega)⟩⟩

end Sys2Proof

/-! SUPPORT. The encoding read both ways: the decoder reads an encoded word's fields back, the encoder writes a decoded
word's used bits back; and the statements on the encoding that follow (R61 to R70). -/

namespace Sys2Proof

open Machine

/-- R9: the opcode class an instruction belongs to. `instrOfClass_class` ties it to the decoder. -/
def opcodeClass : Instr → Opcode
  | .addReg _ _ _ | .addImm _ _ _ => .add
  | .andReg _ _ _ | .andImm _ _ _ => .and
  | .not _ _ => .not
  | .br _ _ _ _ => .br
  | .jmp _ => .jmp
  | .jsrr _ | .jsr _ => .jsr
  | .ld _ _ => .ld
  | .ldi _ _ => .ldi
  | .ldr _ _ _ => .ldr
  | .lea _ _ => .lea
  | .st _ _ => .st
  | .sti _ _ => .sti
  | .str _ _ _ => .str
  | .trap _ => .trap
  | .rsv8 => .rsv8
  | .rsv13 => .rsv13

theorem opcodeClass_instrOfClass (w : Word) (o : Opcode) : opcodeClass (instrOfClass w o) = o := by
  cases o with
  | add => cases hb : w.getLsbD 5 <;> simp only [instrOfClass, hb, if_true, Bool.false_eq_true, if_false, opcodeClass]
  | and => cases hb : w.getLsbD 5 <;> simp only [instrOfClass, hb, if_true, Bool.false_eq_true, if_false, opcodeClass]
  | jsr => cases hb : w.getLsbD 11 <;> simp only [instrOfClass, hb, if_true, Bool.false_eq_true, if_false, opcodeClass]
  | _ => rfl

/-- R62, R63: `[15:12]` of a word is the opcode value of the instruction it decodes to. -/
theorem opcodeField_of_decode {w : Word} {i : Instr} (h : decode w = .ok i) :
    w.extractLsb' 12 4 = opcodeValue (opcodeClass i) := by
  rw [← (decode_eq_ok_iff w i).1 h, opcodeClass_instrOfClass, opcodeValue_opcodeOf]

/-- R63: a word whose `[15:12]` is a class's value is decoded by that class's format. -/
theorem decode_of_opcodeField {w : Word} (o : Opcode) (h : w.extractLsb' 12 4 = opcodeValue o) :
    decode w = .ok (instrOfClass w o) := by
  rw [decode_eq_ok, h, opcodeOf_opcodeValue]

theorem opcodeField_encode (i : Instr) : (encode i).extractLsb' 12 4 = opcodeValue (opcodeClass i) := by
  cases i <;>
    simp (disch := omega) only [encode, opcodeClass, BitVec.extractLsb'_append_eq_of_le, Nat.reduceSub,
      BitVec.extractLsb'_eq_self]

/-- R61: the fields of each format, read back from where the encoder puts them. -/
theorem instrOfClass_encode (i : Instr) : instrOfClass (encode i) (opcodeClass i) = i := by
  cases i with
  | addReg | addImm | andReg | andImm | jsrr | jsr =>
    simp (disch := omega) only [opcodeClass, instrOfClass, encode, BitVec.getLsbD_append, Nat.reduceLT, Nat.reduceSub,
      if_true, if_false, BitVec.reduceGetLsb, Bool.false_eq_true, BitVec.extractLsb'_append_eq_of_le,
      BitVec.extractLsb'_append_eq_of_add_le, BitVec.extractLsb'_eq_self]
  | br =>
    simp (disch := omega) only [opcodeClass, instrOfClass, encode, BitVec.getLsbD_append, Nat.reduceLT, Nat.reduceSub,
      if_true, if_false, BitVec.getLsbD_ofBool, decide_true, Bool.true_and, BitVec.extractLsb'_append_eq_of_add_le,
      BitVec.extractLsb'_eq_self]
  | _ =>
    simp (disch := omega) only [opcodeClass, instrOfClass, encode, BitVec.extractLsb'_append_eq_of_le,
      BitVec.extractLsb'_append_eq_of_add_le, Nat.reduceSub, BitVec.extractLsb'_eq_self]

/-- Settles O13: the opcode is read back first, then the fields of its format. -/
theorem decodeReadsBackEveryEncoding : Obligations.DecodeReadsBackEveryEncoding := by
  intro i
  rw [decode_of_opcodeField _ (opcodeField_encode i), instrOfClass_encode]

/-! ## Unused bits -/

/-- Two words that agree outside the mask `m` agree on each bit that `m` leaves out. -/
theorem getLsbD_eq_of_agree {v w m : Word} (h : v &&& ~~~m = w &&& ~~~m) {k : Nat} (hm : m.getLsbD k = false) :
    v.getLsbD k = w.getLsbD k := by
  by_cases hk : k < 16
  · simpa only [BitVec.getLsbD_and, BitVec.getLsbD_not, hk, hm, decide_true, Bool.not_false, Bool.and_true]
      using congrArg (BitVec.getLsbD · k) h
  · rw [BitVec.getLsbD_of_ge v k (by omega), BitVec.getLsbD_of_ge w k (by omega)]

/-- Two words that agree outside the mask `m` agree on each field that `m` leaves out. -/
theorem extractLsb'_eq_of_agree {v w m : Word} (h : v &&& ~~~m = w &&& ~~~m) {n len : Nat}
    (hm : m.extractLsb' n len = 0) : v.extractLsb' n len = w.extractLsb' n len := by
  refine BitVec.eq_of_getLsbD_eq fun k hk => ?_
  have hbit : m.getLsbD (n + k) = false := by
    simpa only [BitVec.getLsbD_extractLsb', hk, decide_true, Bool.true_and, BitVec.ofNat_eq_ofNat, BitVec.getLsbD_zero]
      using congrArg (BitVec.getLsbD · k) hm
  rw [BitVec.getLsbD_extractLsb', BitVec.getLsbD_extractLsb', getLsbD_eq_of_agree h hbit]

theorem opcodeField_unusedBits (i : Instr) : (unusedBits i).extractLsb' 12 4 = 0 := by
  cases i <;> simp only [unusedBits] <;> decide

/-- R69: within one opcode class, words that agree outside the unused bits of one of them stand for one instruction. -/
theorem instrOfClass_eq_of_agree {v w : Word} (o : Opcode)
    (h : v &&& ~~~(unusedBits (instrOfClass w o)) = w &&& ~~~(unusedBits (instrOfClass w o))) :
    instrOfClass v o = instrOfClass w o := by
  cases o with
  | add | and =>
    cases hb : w.getLsbD 5 <;> simp only [instrOfClass, hb, if_true, if_false, Bool.false_eq_true, unusedBits] at h ⊢ <;>
      simp (disch := decide) only [getLsbD_eq_of_agree h, extractLsb'_eq_of_agree h, hb, if_true, if_false,
        Bool.false_eq_true]
  | jsr =>
    cases hb : w.getLsbD 11 <;> simp only [instrOfClass, hb, if_true, if_false, Bool.false_eq_true, unusedBits] at h ⊢ <;>
      simp (disch := decide) only [getLsbD_eq_of_agree h, extractLsb'_eq_of_agree h, hb, if_true, if_false,
        Bool.false_eq_true]
  | rsv8 | rsv13 => rfl
  | br =>
    simp only [instrOfClass, unusedBits] at h ⊢
    simp (disch := decide) only [getLsbD_eq_of_agree h, extractLsb'_eq_of_agree h]
  | ld | st | ldr | str | not | ldi | sti | jmp | lea | trap =>
    simp only [instrOfClass, unusedBits] at h ⊢
    simp (disch := decide) only [extractLsb'_eq_of_agree h]

/-- Settles O12: the opcode is no unused bit, so both words are of one class. -/
theorem unusedBitsAreIgnored : Obligations.UnusedBitsAreIgnored := by
  intro w w' i hi hagree
  have hop : w'.extractLsb' 12 4 = opcodeValue (opcodeClass i) := by
    rw [extractLsb'_eq_of_agree hagree (opcodeField_unusedBits i), opcodeField_of_decode hi]
  have hclass : instrOfClass w (opcodeClass i) = i := by
    rwa [decode_of_opcodeField _ (opcodeField_of_decode hi), Except.ok.injEq] at hi
  rw [← hclass] at hagree
  rw [decode_of_opcodeField _ hop, instrOfClass_eq_of_agree _ hagree, hclass]

/-- R69: within one opcode class, the encoder writes each bit of a word back, but for the unused ones. -/
theorem encode_instrOfClass {w : Word} {o : Opcode} (h : opcodeValue o = w.extractLsb' 12 4) :
    encode (instrOfClass w o) &&& ~~~(unusedBits (instrOfClass w o)) =
      w &&& ~~~(unusedBits (instrOfClass w o)) := by
  refine Laws.EncodesIntoItsRow.word_ext fun k => ?_
  cases o with
  | add | and =>
    cases hb : w.getLsbD 5 <;> simp only [instrOfClass, hb, if_true, if_false, Bool.false_eq_true, unusedBits] <;>
      fin_cases k <;> simp only [encode, h, BitVec.getLsbD_and, BitVec.getLsbD_append] <;> simp_all
  | jsr =>
    cases hb : w.getLsbD 11 <;> simp only [instrOfClass, hb, if_true, if_false, Bool.false_eq_true, unusedBits] <;>
      fin_cases k <;> simp only [encode, h, BitVec.getLsbD_and, BitVec.getLsbD_append] <;> simp_all
  | _ =>
    fin_cases k <;> simp only [instrOfClass, encode, h, unusedBits, BitVec.getLsbD_and, BitVec.getLsbD_append] <;> simp

/-- Settles O14: the word is of the class of the instruction it decodes to. -/
theorem encodeReadsBackEveryDecodedWord : Obligations.EncodeReadsBackEveryDecodedWord := by
  intro w i hi
  obtain rfl := (decode_eq_ok_iff w i).1 hi
  exact encode_instrOfClass (opcodeValue_opcodeOf _)

/-! ## Table rows -/

/-- R61, R63: each instruction's word has the fixed bits of its table row. -/
theorem encode_and_mask (i : Instr) : encode i &&& (tableRow i).mask = (tableRow i).bits := by
  cases i with
  | addReg a b c => exact Laws.EncodesIntoItsRow.addReg a b c
  | addImm a b c => exact Laws.EncodesIntoItsRow.addImm a b c
  | andReg a b c => exact Laws.EncodesIntoItsRow.andReg a b c
  | andImm a b c => exact Laws.EncodesIntoItsRow.andImm a b c
  | not a b => exact Laws.EncodesIntoItsRow.not a b
  | br n z p off9 => exact Laws.EncodesIntoItsRow.br n z p off9
  | jmp a => exact Laws.EncodesIntoItsRow.jmp a
  | jsrr a => exact Laws.EncodesIntoItsRow.jsrr a
  | jsr off11 => exact Laws.EncodesIntoItsRow.jsr off11
  | ld a off9 => exact Laws.EncodesIntoItsRow.ld a off9
  | ldi a off9 => exact Laws.EncodesIntoItsRow.ldi a off9
  | ldr a b off6 => exact Laws.EncodesIntoItsRow.ldr a b off6
  | lea a off9 => exact Laws.EncodesIntoItsRow.lea a off9
  | st a off9 => exact Laws.EncodesIntoItsRow.st a off9
  | sti a off9 => exact Laws.EncodesIntoItsRow.sti a off9
  | str a b off6 => exact Laws.EncodesIntoItsRow.str a b off6
  | trap payload => exact Laws.EncodesIntoItsRow.trap payload
  | rsv8 => exact Laws.EncodesIntoItsRow.rsv8
  | rsv13 => exact Laws.EncodesIntoItsRow.rsv13

/-- R69: no bit that a table row fixes is an unused one. -/
theorem unusedBits_and_mask (i : Instr) : ~~~(unusedBits i) &&& (tableRow i).mask = (tableRow i).mask := by
  cases i <;> simp only [unusedBits, tableRow] <;> decide

/-- One instruction of each of the 19 rows of spec/opcode_table.json. -/
def rowRepresentatives : List Instr :=
  [.addReg 0 0 0, .addImm 0 0 0, .andReg 0 0 0, .andImm 0 0 0, .not 0 0, .br false false false 0, .jmp 0, .jsrr 0,
    .jsr 0, .ld 0 0, .ldi 0 0, .ldr 0 0 0, .lea 0 0, .st 0 0, .sti 0 0, .str 0 0 0, .trap 0, .rsv8, .rsv13]

def tableRows : List TableRow := rowRepresentatives.map tableRow

theorem tableRow_mem_tableRows (i : Instr) : tableRow i ∈ tableRows := by
  cases i <;> simp [tableRows, rowRepresentatives, tableRow]

/-- Two rows that some word lies in both of: where both masks fix a bit, the rows fix it alike. -/
theorem bits_and_mask_comm {w : Word} {r q : TableRow} (hr : w &&& r.mask = r.bits) (hq : w &&& q.mask = q.bits) :
    r.bits &&& q.mask = q.bits &&& r.mask := by
  rw [← hr, ← hq, BitVec.and_assoc, BitVec.and_assoc, BitVec.and_comm r.mask]

/-- The 19 rows exclude each other. -/
theorem tableRows_disjoint :
    ∀ r ∈ tableRows, ∀ q ∈ tableRows, r.bits &&& q.mask = q.bits &&& r.mask → r = q := by decide

/-- Settles O9: the word agrees with the encoding of its instruction on every bit the row fixes, and rows that share a
word are one. -/
theorem everyWordLiesInExactlyOneTableRow : Obligations.EveryWordLiesInExactlyOneTableRow := by
  intro w i hi
  have hrow : w &&& (tableRow i).mask = (tableRow i).bits := by
    rw [← unusedBits_and_mask, ← BitVec.and_assoc, ← encodeReadsBackEveryDecodedWord w i hi, BitVec.and_assoc,
      unusedBits_and_mask, encode_and_mask]
  exact ⟨hrow, fun j hj => tableRows_disjoint _ (tableRow_mem_tableRows j) _ (tableRow_mem_tableRows i)
    (bits_and_mask_comm hj hrow)⟩

/-! ## Reserved words -/

/-- R62: the opcode field as a quotient. -/
theorem opcodeField_eq_iff (w : Word) (b : BitVec 4) : w.extractLsb' 12 4 = b ↔ w.toNat / 4096 = b.toNat := by
  rw [← BitVec.toNat_inj, BitVec.extractLsb'_toNat, Nat.shiftRight_eq_div_pow, Nat.mod_eq_of_lt (by omega)]

theorem decode_eq_rsv8_iff (w : Word) : decode w = .ok .rsv8 ↔ w.extractLsb' 12 4 = opcodeValue .rsv8 :=
  ⟨opcodeField_of_decode, decode_of_opcodeField _⟩

theorem decode_eq_rsv13_iff (w : Word) : decode w = .ok .rsv13 ↔ w.extractLsb' 12 4 = opcodeValue .rsv13 :=
  ⟨opcodeField_of_decode, decode_of_opcodeField _⟩

/-- Settles O15: a reserved opcode value as a range of words. -/
theorem reservedWordsAreTwoRanges : Obligations.ReservedWordsAreTwoRanges := by
  intro w
  rw [decode_eq_rsv8_iff, decode_eq_rsv13_iff, opcodeField_eq_iff, opcodeField_eq_iff,
    show (opcodeValue .rsv8).toNat = 8 from rfl, show (opcodeValue .rsv13).toNat = 13 from rfl]
  omega

/-- Settles O16: closed words, run through the decoder. -/
theorem writtenOutWordsDecode : Obligations.WrittenOutWordsDecode := by
  refine ⟨?_, ?_, ?_, ?_, ?_, ?_, ?_, ?_, ?_, ?_, ?_, ?_, ?_, ?_, ?_, ?_, ?_, ?_, ?_⟩ <;> rfl

end Sys2Proof

/-! SUPPORT. All that an instruction and a step can do, said once: an inversion of `exec` and of `step`. -/

namespace Sys2Proof

open Machine

/-! ## Accesses in and out of range -/

section
variable (s : State) {addr : Word}

theorem memRead_of_inRange (h : addr.toNat < s.mem.words) : s.memRead addr = .ok (readCell addr.toNat s.mem.cells) :=
  if_pos h

theorem memRead_of_outOfRange (h : s.mem.words ≤ addr.toNat) : s.memRead addr = .error (.accessFault addr) :=
  if_neg (Nat.not_lt.2 h)

theorem memWrite_of_inRange (h : addr.toNat < s.mem.words) (v : Word) :
    s.memWrite addr v = .ok { s with mem := { s.mem with cells := writeCell addr.toNat v s.mem.cells } } :=
  if_pos h

theorem memWrite_of_outOfRange (h : s.mem.words ≤ addr.toNat) (v : Word) :
    s.memWrite addr v = .error (.accessFault addr) :=
  if_neg (Nat.not_lt.2 h)

end

/-! ## What an instruction can do -/

/-- R26: the instructions that set PC to a target of their own. -/
def transfersControl : Instr → Bool
  | .br _ _ _ _ | .jmp _ | .jsrr _ | .jsr _ => true
  | _ => false

theorem updatesCc_of_transfersControl {i : Instr} (h : transfersControl i = true) : updatesCc i = false := by
  cases i with
  | br | jmp | jsrr | jsr => rfl
  | _ => cases h

theorem updatesCc_of_writesMemory {i : Instr} (h : writesMemory i = true) : updatesCc i = false := by
  cases i with
  | st | sti | str => rfl
  | _ => cases h

/-- The states that `i` may leave behind when it runs in `s`. `effect_of_exec` ties it to `exec`. -/
inductive Effect (i : Instr) (s : State) : State → Prop where
  /-- R88: a result in the destination register, and its class in CC. -/
  | result (dr : RegId) (v : Word) (hdest : destination i = some dr) (hcc : updatesCc i = true) :
    Effect i s (s.defineResult dr v)
  /-- R121, R122: PC alone. -/
  | jump (target : Word) (hctl : transfersControl i = true) : Effect i s (s.writePc target)
  /-- R123: the link register and PC. -/
  | call (target : Word) (hctl : transfersControl i = true) (hdest : destination i = some linkReg) :
    Effect i s ((s.writeReg linkReg s.pc).writePc target)
  /-- R147 to R149: one cell. -/
  | store (addr v : Word) (t : State) (hst : writesMemory i = true) (hwrite : s.memWrite addr v = .ok t) : Effect i s t
  /-- R183: an access out of range, before any write. -/
  | accessFault (addr : Word) (hout : s.mem.words ≤ addr.toNat) : Effect i s (s.raiseFatal (.accessFault addr))
  /-- R172. -/
  | reserved (hrsv : i = .rsv8 ∨ i = .rsv13) :
    Effect i s (s.raiseFatal (.reservedOpcode (opcodeValue (opcodeClass i))))
  /-- R171: whatever the handler's answer does. -/
  | handled (payload : BitVec 12) (calls : List AccessorCall) (sig : Signal) (htrap : i = .trap payload) :
    Effect i s (s.runHandler calls sig)

section
variable {i : Instr} {s t : State}

theorem effect_of_result {dr : RegId} {v : Word} (hdest : destination i = some dr) (hcc : updatesCc i = true)
    (h : (.next (s.defineResult dr v) : Result) = .next t) : Effect i s t :=
  Host.Outcome.next.inj h ▸ .result dr v hdest hcc

theorem effect_of_read {addr : Word} {k : Word → Result} (h : s.orFatal (s.memRead addr) k = .next t)
    (hk : ∀ v, k v = .next t → Effect i s t) : Effect i s t := by
  rcases orFatal_cases h with ⟨v, _, hv⟩ | ⟨r, hr, rfl⟩
  · exact hk v hv
  · obtain ⟨hout, rfl⟩ := memRead_error hr
    exact .accessFault addr hout

theorem effect_of_write {addr v : Word} (hst : writesMemory i = true)
    (h : s.orFatal (s.memWrite addr v) .next = .next t) : Effect i s t := by
  rcases orFatal_cases h with ⟨u, hu, hv⟩ | ⟨r, hr, rfl⟩
  · exact .store addr v t hst (Host.Outcome.next.inj hv ▸ hu)
  · obtain ⟨hout, rfl⟩ := memWrite_error hr
    exact .accessFault addr hout

/-- All that an instruction can do, if it answers a next state. -/
theorem effect_of_exec (h : exec i s = .next t) : Effect i s t := by
  cases i with
  | addReg dr sr1 sr2 => exact effect_of_result rfl rfl h
  | addImm dr sr1 imm5 => exact effect_of_result rfl rfl (exec_addImm s dr sr1 imm5 ▸ h)
  | andReg dr sr1 sr2 => exact effect_of_result rfl rfl h
  | andImm dr sr1 imm5 => exact effect_of_result rfl rfl (exec_andImm s dr sr1 imm5 ▸ h)
  | not dr sr => exact effect_of_result rfl rfl h
  | br n z p off9 =>
    rw [exec_br] at h
    obtain rfl := Host.Outcome.next.inj h
    split
    · exact .jump _ rfl
    · exact .jump s.pc rfl
  | jmp baseR => exact Host.Outcome.next.inj h ▸ .jump _ rfl
  | jsrr baseR => exact Host.Outcome.next.inj (exec_jsrr s baseR ▸ h) ▸ .call _ rfl rfl
  | jsr off11 => exact Host.Outcome.next.inj (exec_jsr s off11 ▸ h) ▸ .call _ rfl rfl
  | ld dr off9 => exact effect_of_read (exec_ld s dr off9 ▸ h) fun v => effect_of_result rfl rfl
  | ldi dr off9 =>
    exact effect_of_read (exec_ldi s dr off9 ▸ h) fun ptr hptr => effect_of_read hptr fun v => effect_of_result rfl rfl
  | ldr dr baseR off6 => exact effect_of_read (exec_ldr s dr baseR off6 ▸ h) fun v => effect_of_result rfl rfl
  | lea dr off9 => exact effect_of_result rfl rfl (exec_lea s dr off9 ▸ h)
  | st sr off9 => exact effect_of_write rfl (exec_st s sr off9 ▸ h)
  | sti sr off9 => exact effect_of_read (exec_sti s sr off9 ▸ h) fun ptr => effect_of_write rfl
  | str sr baseR off6 => exact effect_of_write rfl (exec_str s sr baseR off6 ▸ h)
  | trap payload =>
    rw [exec_trap] at h
    rcases trapCall_cases s (trapWord payload) with ⟨_, hstuck⟩ | ⟨_, hnext⟩
    · rw [hstuck] at h
      cases h
    · rw [hnext] at h
      exact Host.Outcome.next.inj h ▸ .handled payload _ _ rfl
  | rsv8 => exact Host.Outcome.next.inj h ▸ .reserved (.inl rfl)
  | rsv13 => exact Host.Outcome.next.inj h ▸ .reserved (.inr rfl)

/-- All that a step can do, if it answers a next state: the machine runs, and the fetch faults or the decoded instruction
runs. -/
theorem step_next_cases (h : step s = .next t) :
    s.status = .running ∧
      ((s.mem.words ≤ s.pc.toNat ∧ t = s.raiseFatal (.accessFault s.pc)) ∨
        ∃ w i, s.memRead s.pc = .ok w ∧ decode w = .ok i ∧ exec i s.incPc = .next t) := by
  cases hrun : s.status with
  | stopped => simp [step_eq, hrun] at h
  | fatal r => simp [step_eq, hrun] at h
  | running =>
    refine ⟨rfl, ?_⟩
    rw [step_running hrun, State.tick] at h
    rcases orFatal_cases h with ⟨w, hw, hdec⟩ | ⟨r, hr, rfl⟩
    · refine .inr ⟨w, _, hw, decode_eq_ok w, ?_⟩
      rwa [decode_eq_ok w, orFatal_ok] at hdec
    · obtain ⟨hout, rfl⟩ := memRead_error hr
      exact .inl ⟨hout, rfl⟩

/-- R20: the size of memory is fixed. -/
theorem runHandler_words (s : State) (calls : List AccessorCall) (sig : Signal) :
    (s.runHandler calls sig).mem.words = s.mem.words := by
  rcases runHandler_cases s calls sig with ⟨u, hu, heq⟩ | ⟨a, _, _, heq⟩
  · rw [heq, complete_mem]
    exact (runCalls_keeps hu).1
  · rw [heq, raiseFatal_mem]

theorem Effect.words_eq (h : Effect i s t) : t.mem.words = s.mem.words := by
  cases h with
  | result | jump | call | accessFault | reserved => rfl
  | store addr v t hst hwrite =>
    obtain ⟨_, rfl⟩ := memWrite_ok hwrite
    rfl
  | handled payload calls sig => exact runHandler_words s calls sig

/-- Log 2: the handler's calls keep the memory's canonical form. -/
theorem runCalls_keeps_wf {calls : List AccessorCall} (hwf : s.mem.wf = true) (h : s.runCalls calls = .ok t) :
    t.mem.wf = true := by
  refine runCalls_induct (fun u => u.mem.wf = true) calls s (fun u c u' _ hu hc => ?_) hwf h
  rcases accessorCall_cases hc with ⟨_, _, _, rfl⟩ | ⟨_, _, rfl⟩ | ⟨_, _, rfl⟩ | ⟨_, _, _, _, rfl⟩ | ⟨_, _, _, hw⟩
  · exact hu
  · exact hu
  · exact hu
  · exact hu
  · exact memWrite_keeps_wf hu hw

/-- Log 2: so does the handler's answer, whether its calls take effect or not. -/
theorem runHandler_keeps_wf (calls : List AccessorCall) (sig : Signal) (hwf : s.mem.wf = true) :
    (s.runHandler calls sig).mem.wf = true := by
  rcases runHandler_cases s calls sig with ⟨u, hu, heq⟩ | ⟨a, _, _, heq⟩
  · rw [heq, complete_mem]
    exact (runCalls_keeps_wf hwf hu : u.mem.wf = true)
  · rwa [heq, raiseFatal_mem]

theorem Effect.keeps_wf (h : Effect i s t) (hwf : s.mem.wf = true) : t.mem.wf = true := by
  cases h with
  | result | jump | call | accessFault | reserved => exact hwf
  | store addr v t hst hwrite => exact memWrite_keeps_wf hwf hwrite
  | handled payload calls sig => exact runHandler_keeps_wf calls sig hwf

/-- R183: the one fatal event of a handler's answer is an access out of range, and none of its calls is kept. -/
theorem runHandler_fatal {calls : List AccessorCall} {sig : Signal} {r : FatalReason} (hrun : s.status = .running)
    (hr : (s.runHandler calls sig).status = .fatal r) :
    s.runHandler calls sig = s.raiseFatal r ∧ ∃ a, s.mem.words ≤ a.toNat ∧ r = .accessFault a := by
  rcases runHandler_cases s calls sig with ⟨u, hu, heq⟩ | ⟨a, hout, _, heq⟩
  · obtain ⟨_, hstatus, _, _⟩ := runCalls_keeps hu
    rw [heq] at hr
    cases sig with
    | haltOrError => cases hr
    | _ => exact absurd (hr.symm.trans (hstatus.trans hrun)) (by simp)
  · rw [heq, raiseFatal_status, Status.fatal.injEq] at hr
    subst hr
    exact ⟨heq, a, hout, rfl⟩

/-- R180: the fatal events of a running machine's instruction, and the state each leaves. -/
theorem Effect.fatal (h : Effect i s t) (hrun : s.status = .running) {r : FatalReason} (hr : t.status = .fatal r) :
    t = s.raiseFatal r ∧
      ((∃ a, s.mem.words ≤ a.toNat ∧ r = .accessFault a) ∨
        ((i = .rsv8 ∨ i = .rsv13) ∧ r = .reservedOpcode (opcodeValue (opcodeClass i)))) := by
  have hnot : s.status ≠ .fatal r := by simp [hrun]
  cases h with
  | result | jump | call => exact absurd hr hnot
  | store addr v t hst hwrite =>
    obtain ⟨_, rfl⟩ := memWrite_ok hwrite
    exact absurd hr hnot
  | accessFault addr hout =>
    obtain rfl := Status.fatal.inj hr
    exact ⟨rfl, .inl ⟨addr, hout, rfl⟩⟩
  | reserved hrsv =>
    obtain rfl := Status.fatal.inj hr
    exact ⟨rfl, .inr ⟨hrsv, rfl⟩⟩
  | handled payload calls sig =>
    obtain ⟨heq, hfault⟩ := runHandler_fatal hrun hr
    exact ⟨heq, .inl hfault⟩

/-- R180, R187: a step that ends in a fatal event: the fetch faulted, an access of the decoded instruction did, or the word
is a reserved one. -/
theorem step_fatal_cases (h : step s = .next t) {r : FatalReason} (hr : t.status = .fatal r) :
    (t = s.raiseFatal r ∧ s.mem.words ≤ s.pc.toNat ∧ r = .accessFault s.pc) ∨
      (t = s.incPc.raiseFatal r ∧ ∃ w i, s.memRead s.pc = .ok w ∧ decode w = .ok i ∧
        ((∃ a, s.mem.words ≤ a.toNat ∧ r = .accessFault a) ∨
          ((i = .rsv8 ∨ i = .rsv13) ∧ r = .reservedOpcode (opcodeValue (opcodeClass i))))) := by
  obtain ⟨hrun, ⟨hout, rfl⟩ | ⟨w, i, hw, hi, hexec⟩⟩ := step_next_cases h
  · obtain rfl := Status.fatal.inj hr
    exact .inl ⟨rfl, hout, rfl⟩
  · obtain ⟨heq, hcause⟩ := (effect_of_exec hexec).fatal hrun hr
    exact .inr ⟨heq, w, i, hw, hi, hcause⟩

theorem step_words_eq (h : step s = .next t) : t.mem.words = s.mem.words := by
  obtain ⟨_, ⟨_, rfl⟩ | ⟨_, _, _, _, hexec⟩⟩ := step_next_cases h
  · rfl
  · exact (effect_of_exec hexec).words_eq

end

/-! ## Invariants of a step -/

/-- Settles O53: a step's fatal event is an access fault or a reserved opcode. -/
theorem engineNeverViolatesTheToolkitsContract : Obligations.EngineNeverViolatesTheToolkitsContract := by
  intro s t _ hstep r hr
  rcases step_fatal_cases hstep hr with ⟨_, _, rfl⟩ | ⟨_, _, _, _, _, ⟨_, _, rfl⟩ | ⟨_, rfl⟩⟩ <;> rfl

/-- R43: every 16-bit address is below 65536. -/
theorem not_outOfRange_of_fullMemory {s : State} (hfull : s.mem.words = 65536) (a : Word) : ¬s.mem.words ≤ a.toNat := by
  omega

/-- Settles O54: an access fault needs an address past the last cell, so a reserved word is the only cause left. -/
theorem fullMemoryFaultsOnlyOnReservedOpcodes : Obligations.FullMemoryFaultsOnlyOnReservedOpcodes := by
  intro s t hfull hstep
  refine ⟨(step_words_eq hstep).trans hfull, fun _ r hr => ?_, fun _ hwords r hr => ?_⟩
  · rcases step_fatal_cases hstep hr with ⟨_, hout, _⟩ | ⟨_, _, _, _, _, ⟨a, hout, _⟩ | ⟨_, rfl⟩⟩
    · exact absurd hout (not_outOfRange_of_fullMemory hfull s.pc)
    · exact absurd hout (not_outOfRange_of_fullMemory hfull a)
    · rfl
  · rcases step_fatal_cases hstep hr with ⟨_, hout, _⟩ | ⟨_, w, i, hw, hi, ⟨a, hout, _⟩ | ⟨hrsv, _⟩⟩
    · exact not_outOfRange_of_fullMemory hfull s.pc hout
    · exact not_outOfRange_of_fullMemory hfull a hout
    · obtain ⟨hnot8, hnot13⟩ := hwords w hw
      rcases hrsv with rfl | rfl
      · exact hnot8 hi
      · exact hnot13 hi

/-- Settles O55: a fetch that faults leaves memory alone, and each effect of an instruction keeps the form. -/
theorem everyStepKeepsTheMemorysForm : Obligations.EveryStepKeepsTheMemorysForm := by
  intro s t hwf hstep
  refine ⟨?_, step_words_eq hstep⟩
  obtain ⟨_, ⟨_, rfl⟩ | ⟨_, _, _, _, hexec⟩⟩ := step_next_cases hstep
  · exact hwf
  · exact (effect_of_exec hexec).keeps_wf hwf

/-- Settles O51: the two kinds of fatal event, that of the fetch and that of an instruction. -/
theorem fatalEventsArePrecise : Obligations.FatalEventsArePrecise := by
  intro s t r _ hstep hr
  rcases step_fatal_cases hstep hr with ⟨heq, hout, hcause⟩ | ⟨heq, w, _, hw, _⟩
  · exact .inl ⟨heq, hcause, hout⟩
  · exact .inr ⟨heq, (memRead_ok hw).1⟩

/-- R184: only a handler's answer makes a running machine Stopped. -/
theorem Effect.eq_trap_of_stopped {i : Instr} {s t : State} (h : Effect i s t) (hrun : s.status = .running)
    (hstop : t.status = .stopped) : ∃ payload, i = .trap payload := by
  have hnot : s.status ≠ .stopped := by simp [hrun]
  cases h with
  | result | jump | call => exact absurd hstop hnot
  | store addr v t hst hwrite =>
    obtain ⟨_, rfl⟩ := memWrite_ok hwrite
    exact absurd hstop hnot
  | accessFault | reserved => cases hstop
  | handled payload _ _ htrap => exact ⟨payload, htrap⟩

/-- Settles O52: the opcode of the fetched word names the instruction that ends the run. -/
theorem causesOfTheEndOfARun : Obligations.CausesOfTheEndOfARun := by
  intro s t w hrun hw hstep
  have hexec : exec (instrOfClass w (opcodeOf (w.extractLsb' 12 4))) s.incPc = .next t :=
    (step_eq_exec hrun hw (decode_eq_ok w)).symm.trans hstep
  refine ⟨fun hstop => ?_, fun op => ⟨fun hr => ?_, ?_⟩⟩
  · obtain ⟨payload, htrap⟩ := (effect_of_exec hexec).eq_trap_of_stopped hrun hstop
    exact opcodeField_of_decode (htrap ▸ decode_eq_ok w)
  · obtain ⟨_, ⟨_, _, hcause⟩ | ⟨hrsv, hcause⟩⟩ := (effect_of_exec hexec).fatal hrun hr
    · cases hcause
    · obtain rfl := FatalReason.reservedOpcode.inj hcause
      rw [opcodeClass_instrOfClass, opcodeValue_opcodeOf]
      refine ⟨rfl, ?_⟩
      rcases hrsv with h8 | h13
      · exact .inl (opcodeField_of_decode (h8 ▸ decode_eq_ok w))
      · exact .inr (opcodeField_of_decode (h13 ▸ decode_eq_ok w))
  · rintro ⟨rfl, h8 | h13⟩
    · rw [h8, opcodeOf_opcodeValue] at hexec
      rw [h8, ← Host.Outcome.next.inj hexec]
      rfl
    · rw [h13, opcodeOf_opcodeValue] at hexec
      rw [h13, ← Host.Outcome.next.inj hexec]
      rfl

/-- R180, R187: a fetch out of range is fatal before the increment. -/
theorem step_of_fetch_outOfRange {s : State} (hrun : s.status = .running) (hout : s.mem.words ≤ s.pc.toNat) :
    step s = .next (s.raiseFatal (.accessFault s.pc)) := by
  rw [step_running hrun, State.tick, memRead_of_outOfRange s hout, orFatal_error]

/-- Settles O45: a read out of range at PC, and `step` by the status. -/
theorem noTickWithoutAFetchOrARunningMachine : Obligations.NoTickWithoutAFetchOrARunningMachine :=
  fun s => ⟨step_of_fetch_outOfRange, fun h => by rw [step_eq, h], fun r h => by rw [step_eq, h]⟩

end Sys2Proof

/-! SUPPORT. The rules about every instruction: what it writes and what it does not read (R22, R23, R26, R29), that a
running machine steps (R211), and that a store is seen by later fetches (R54). -/

namespace Sys2Proof

open Machine

/-! ## The condition code as a sign class -/

theorem condOf_eq_zro_iff (v : Word) : condOf v = .zro ↔ v = 0 := by
  refine ⟨fun h => ?_, fun h => by rw [h]; rfl⟩
  by_contra hne
  rw [condOf, if_neg hne] at h
  split at h <;> cases h

theorem condOf_eq_neg_iff (v : Word) : condOf v = .neg ↔ 0x8000 ≤ v.toNat := by
  refine ⟨fun h => ?_, condOf_eq_neg⟩
  by_contra hlt
  rcases Nat.eq_zero_or_pos v.toNat with h0 | hpos
  · cases h.symm.trans (condOf_eq_zro h0)
  · cases h.symm.trans (condOf_eq_pos hpos (by omega))

theorem condOf_eq_pos_iff (v : Word) : condOf v = .pos ↔ 1 ≤ v.toNat ∧ v.toNat ≤ 0x7FFF := by
  refine ⟨fun h => ?_, fun h => condOf_eq_pos h.1 h.2⟩
  rcases Nat.eq_zero_or_pos v.toNat with h0 | hpos
  · cases h.symm.trans (condOf_eq_zro h0)
  · refine ⟨hpos, ?_⟩
    by_contra hle
    cases h.symm.trans (condOf_eq_neg (by omega))

/-- R87: the classes read as signs. -/
theorem ccReflects_condOf (v : Word) : ccReflects (condOf v) v := by
  refine ⟨condOf_eq_zro_iff v, ?_, ?_⟩
  · rw [condOf_eq_neg_iff, BitVec.toInt_eq_toNat_cond]
    split <;> omega
  · rw [condOf_eq_pos_iff, BitVec.toInt_eq_toNat_cond]
    split <;> omega

/-! ## Frames of the shared operations -/

theorem defineResult_regsKept (s : State) (dr : RegId) (v : Word) : regsKept (some dr) s (s.defineResult dr v) :=
  fun r hr => defineResult_readReg_ne s dr r v fun he => hr (congrArg some he)

/-- R88: the write of a result register, with its flags and frame. -/
theorem definesResult_defineResult (s : State) (dr : RegId) (v : Word) : definesResult dr v s (s.defineResult dr v) :=
  ⟨defineResult_readReg_same s dr v, defineResult_cc s dr v ▸ ccReflects_condOf v, defineResult_regsKept s dr v,
    fun _ _ => rfl, rfl, rfl, rfl, rfl, rfl⟩

/-- R14: a write of PC, with its frame. -/
theorem transfersTo_writePc (s : State) (target : Word) : transfersTo target s (s.writePc target) :=
  ⟨rfl, rfl, fun _ _ => rfl, fun _ _ => rfl, rfl, rfl, rfl, rfl⟩

theorem writeReg_regsKept (s : State) (r : RegId) (v : Word) : regsKept (some r) s (s.writeReg r v) :=
  fun r' hr => readReg_writeReg_ne s r r' v fun he => hr (congrArg some he)

/-- R123: the link step and the write of PC, with their frame. -/
theorem callsTo_link (s : State) (target : Word) : callsTo target s ((s.writeReg linkReg s.pc).writePc target) :=
  ⟨readReg_writeReg_same s linkReg s.pc, rfl, rfl, writeReg_regsKept s linkReg s.pc, fun _ _ => rfl, rfl, rfl, rfl, rfl⟩

/-- R42: a write of memory, with its frame. -/
theorem storesAt_of_memWrite {s t : State} {addr v : Word} (h : s.memWrite addr v = .ok t) : storesAt addr v s t := by
  obtain ⟨_, hpc, hcc, hwords, hstatus, hcalls, hhang⟩ := memWrite_fields h
  refine ⟨?_, fun a ha => ?_, fun r _ => memWrite_readReg h r, hpc, hcc, hstatus, hwords, hcalls, hhang⟩
  · rw [memWrite_memRead h, if_pos rfl]
  · rw [memWrite_memRead h, if_neg fun he => ha (congrArg some he.symm)]

/-- Settles O38: the statement spells `storesAt` out. -/
theorem memoryReadsTheLatestWrite : Obligations.MemoryReadsTheLatestWrite :=
  fun _ _ _ _ => storesAt_of_memWrite

/-! ## What an instruction writes -/

/-- Settles O46, effect by effect. -/
theorem onlyTheNamedRegisterAndStoresWrite : Obligations.OnlyTheNamedRegisterAndStoresWrite := by
  intro i s t htrap hexec
  cases effect_of_exec hexec with
  | result dr v hdest => exact ⟨hdest ▸ defineResult_regsKept s dr v, fun _ => rfl, rfl, rfl, rfl⟩
  | jump | accessFault | reserved => exact ⟨fun _ _ => rfl, fun _ => rfl, rfl, rfl, rfl⟩
  | call target _ hdest => exact ⟨hdest ▸ writeReg_regsKept s linkReg s.pc, fun _ => rfl, rfl, rfl, rfl⟩
  | store addr v t hst hwrite =>
    obtain ⟨_, _, _, hwords, _, hcalls, hhang⟩ := memWrite_fields hwrite
    exact ⟨fun r _ => memWrite_readReg hwrite r, fun hno => absurd (hst.symm.trans hno) (by simp), hwords, hcalls, hhang⟩
  | handled payload _ _ hi => exact absurd hi (htrap payload)

/-- Settles O47, effect by effect: a result sets CC from the register it wrote, and what sets no CC is no result
instruction or has ended the run. -/
theorem onlyResultInstructionsWriteCc : Obligations.OnlyResultInstructionsWriteCc := by
  intro i s t htrap hexec
  cases effect_of_exec hexec with
  | result dr v hdest hcc =>
    refine ⟨fun hno => absurd (hcc.symm.trans hno) (by simp), fun _ _ _ => ⟨dr, hdest, ?_⟩⟩
    rw [defineResult_cc, defineResult_readReg_same]
    exact ccReflects_condOf v
  | jump _ hctl | call _ hctl =>
    exact ⟨fun _ => rfl, fun hyes => absurd (hyes.symm.trans (updatesCc_of_transfersControl hctl)) (by simp)⟩
  | store addr v t hst hwrite =>
    obtain ⟨_, _, hcc, _⟩ := memWrite_fields hwrite
    exact ⟨fun _ => hcc, fun hyes => absurd (hyes.symm.trans (updatesCc_of_writesMemory hst)) (by simp)⟩
  | accessFault | reserved => exact ⟨fun _ => rfl, fun _ hsame hrun => absurd (hsame.trans hrun) (by simp)⟩
  | handled payload _ _ hi => exact absurd hi (htrap payload)

/-- An instruction that transfers no control and calls no handler leaves PC. -/
theorem Effect.pc_eq {i : Instr} {s t : State} (h : Effect i s t) (hctl : transfersControl i = false)
    (htrap : ∀ payload, i ≠ .trap payload) : t.pc = s.pc := by
  cases h with
  | result | accessFault | reserved => rfl
  | jump _ hyes | call _ hyes => exact absurd (hyes.symm.trans hctl) (by simp)
  | store addr v t hst hwrite =>
    obtain ⟨_, hpc, _⟩ := memWrite_fields hwrite
    exact hpc
  | handled payload _ _ hi => exact absurd hi (htrap payload)

/-- R121: BR writes PC whether taken or not: with the target, or with what it was. -/
theorem exec_br_eq_writePc (s : State) (n z p : Bool) (off9 : BitVec 9) :
    exec (.br n z p off9) s = .next (s.writePc (if taken n z p s.cc then s.pc + off9.signExtend 16 else s.pc)) := by
  rw [exec_br]
  split <;> rfl

/-- Settles O50: the four transfers by their meanings, and every other instruction leaves the incremented PC. -/
theorem programCounterAtTheEndOfATick : Obligations.ProgramCounterAtTheEndOfATick := by
  intro s t w i hrun hw hi hstep
  have hexec : exec i s.incPc = .next t := (step_eq_exec hrun hw hi).symm.trans hstep
  cases i with
  | br n z p off9 => exact Host.Outcome.next.inj (exec_br_eq_writePc s.incPc n z p off9 ▸ hexec) ▸ rfl
  | jmp baseR => exact Host.Outcome.next.inj hexec ▸ rfl
  | jsrr baseR =>
    rw [exec_jsrr] at hexec
    obtain rfl := Host.Outcome.next.inj hexec
    simp only [writePc_pc, incPc_pc, incPc_readReg, eq_comm]
  | jsr off11 => exact Host.Outcome.next.inj (exec_jsr s.incPc off11 ▸ hexec) ▸ rfl
  | trap payload => trivial
  | _ => exact (effect_of_exec hexec).pc_eq rfl (by simp)

/-! ## What an instruction does not read -/

/-- The answer with its next state, if it has one, changed by `f`. -/
def mapNext (f : State → State) : Result → Result
  | .next t => .next (f t)
  | .fault r => .fault r
  | .refused r => .refused r

@[simp] theorem mapNext_next (f : State → State) (t : State) : mapNext f (.next t) = .next (f t) := rfl

/-- A change of the state that a fatal event and what follows both pass on comes out at the end of a step. -/
theorem mapNext_orFatal {α : Type} {f : State → State} (hf : ∀ s e, (f s).raiseFatal e = f (s.raiseFatal e)) (s : State)
    (x : Except FatalReason α) (k : α → Result) :
    mapNext f (s.orFatal x k) = (f s).orFatal x fun v => mapNext f (k v) := by
  cases x with
  | ok v => rfl
  | error e => exact congrArg Host.Outcome.next (hf s e).symm

/-- A store whose written state is then changed by `f`. -/
theorem orFatal_map_next (f : State → State) (s : State) (x : Except FatalReason State) :
    s.orFatal (x.map f) .next = s.orFatal x fun t => .next (f t) := by
  cases x <;> rfl

section
variable {r : RegId} (v : Word)

theorem defineResult_writeReg (s : State) {dr : RegId} (x : Word) (h : dr ≠ r) :
    (s.writeReg r v).defineResult dr x = (s.defineResult dr x).writeReg r v := by
  simp only [State.defineResult, readReg_writeReg_same]
  rw [writeReg_comm s r dr v x h.symm]
  rfl

theorem memWrite_writeReg (s : State) (addr x : Word) :
    (s.writeReg r v).memWrite addr x = (s.memWrite addr x).map (·.writeReg r v) := by
  rcases Nat.lt_or_ge addr.toNat s.mem.words with hin | hout
  · rw [memWrite_of_inRange s hin, memWrite_of_inRange (s.writeReg r v) hin]
    rfl
  · rw [memWrite_of_outOfRange s hout, memWrite_of_outOfRange (s.writeReg r v) hout]
    rfl

/-- R23: running an instruction commutes with a write to a register that it neither reads nor writes. -/
theorem exec_writeReg {i : Instr} (htrap : ∀ payload, i ≠ .trap payload) (hsrc : r ∉ sources i)
    (hdest : destination i ≠ some r) (s : State) :
    exec i (s.writeReg r v) = mapNext (·.writeReg r v) (exec i s) := by
  have hpass : ∀ (s : State) e, (s.writeReg r v).raiseFatal e = (s.raiseFatal e).writeReg r v := fun _ _ => rfl
  have hread : ∀ sr ∈ sources i, (s.writeReg r v).readReg sr = s.readReg sr :=
    fun sr hsr => readReg_writeReg_ne s r sr v fun he => hsrc (he ▸ hsr)
  have hresult : ∀ dr x, destination i = some dr →
      (s.writeReg r v).defineResult dr x = (s.defineResult dr x).writeReg r v :=
    fun dr x hdr => defineResult_writeReg v s x fun he => hdest (he ▸ hdr)
  cases i with
  | addReg dr sr1 sr2 =>
    rw [exec_addReg, exec_addReg, hread sr1 (by simp [sources]), hread sr2 (by simp [sources]),
      hresult dr _ rfl, mapNext_next]
  | addImm dr sr1 imm5 => rw [exec_addImm, exec_addImm, hread sr1 (by simp [sources]), hresult dr _ rfl, mapNext_next]
  | andReg dr sr1 sr2 =>
    rw [exec_andReg, exec_andReg, hread sr1 (by simp [sources]), hread sr2 (by simp [sources]),
      hresult dr _ rfl, mapNext_next]
  | andImm dr sr1 imm5 => rw [exec_andImm, exec_andImm, hread sr1 (by simp [sources]), hresult dr _ rfl, mapNext_next]
  | not dr sr => rw [exec_not, exec_not, hread sr (by simp [sources]), hresult dr _ rfl, mapNext_next]
  | br n z p off9 => rw [exec_br_eq_writePc, exec_br_eq_writePc]; rfl
  | jmp baseR => rw [exec_jmp, exec_jmp, hread baseR (by simp [sources])]; rfl
  | jsrr baseR =>
    rw [exec_jsrr, exec_jsrr, hread baseR (by simp [sources]), writeReg_pc,
      writeReg_comm s r linkReg v s.pc fun he => hdest (congrArg some he.symm)]
    rfl
  | jsr off11 =>
    rw [exec_jsr, exec_jsr, writeReg_pc, writeReg_comm s r linkReg v s.pc fun he => hdest (congrArg some he.symm)]
    rfl
  | ld dr off9 =>
    simp only [exec_ld, mapNext_orFatal hpass, mapNext_next, hresult dr _ rfl, writeReg_pc, writeReg_memRead]
  | ldi dr off9 =>
    simp only [exec_ldi, mapNext_orFatal hpass, mapNext_next, hresult dr _ rfl, writeReg_pc, writeReg_memRead]
  | ldr dr baseR off6 =>
    simp only [exec_ldr, mapNext_orFatal hpass, mapNext_next, hresult dr _ rfl, hread baseR (by simp [sources]),
      writeReg_memRead]
  | lea dr off9 => rw [exec_lea, exec_lea, writeReg_pc, hresult dr _ rfl, mapNext_next]
  | st sr off9 =>
    simp only [exec_st, mapNext_orFatal hpass, mapNext_next, hread sr (by simp [sources]), writeReg_pc, memWrite_writeReg,
      orFatal_map_next]
  | sti sr off9 =>
    simp only [exec_sti, mapNext_orFatal hpass, mapNext_next, hread sr (by simp [sources]), writeReg_pc, writeReg_memRead,
      memWrite_writeReg, orFatal_map_next]
  | str sr baseR off6 =>
    simp only [exec_str, mapNext_orFatal hpass, mapNext_next, hread sr (by simp [sources]), hread baseR (by simp [sources]),
      memWrite_writeReg, orFatal_map_next]
  | trap payload => exact absurd rfl (htrap payload)
  | rsv8 | rsv13 => rfl

end

/-- Settles O49: the answer to the changed state is the first answer, changed. -/
theorem unreadRegistersDoNotMatter : Obligations.UnreadRegistersDoNotMatter := by
  intro i s t r v htrap hsrc hdest hexec
  rw [exec_writeReg v htrap hsrc hdest, hexec, mapNext_next]

/-- R29: the answer `o`, from a state with the condition code `c` instead, differs from the next state `t` in CC at most;
and where `i` is a result instruction, only by a fatal event's leaving `c` in place. -/
def CcBlind (i : Instr) (c : Cond) (t : State) (o : Result) : Prop :=
  o = .next t ∨ (o = .next (t.writeCc c) ∧ (updatesCc i = true → ∃ r, t.status = .fatal r))

section
variable {i : Instr} {s t : State} {c : Cond}

theorem CcBlind.orFatal {α : Type} {x : Except FatalReason α} {k k' : α → Result} (h : s.orFatal x k = .next t)
    (hk : ∀ v, k v = .next t → CcBlind i c t (k' v)) : CcBlind i c t ((s.writeCc c).orFatal x k') := by
  rcases orFatal_cases h with ⟨v, rfl, hv⟩ | ⟨r, rfl, rfl⟩
  · exact hk v hv
  · exact .inr ⟨rfl, fun _ => ⟨r, rfl⟩⟩

theorem CcBlind.result {dr : RegId} {v : Word} (h : (.next (s.defineResult dr v) : Result) = .next t) :
    CcBlind i c t (.next ((s.writeCc c).defineResult dr v)) :=
  .inl h

theorem memWrite_writeCc (s : State) (c : Cond) (addr x : Word) :
    (s.writeCc c).memWrite addr x = (s.memWrite addr x).map (·.writeCc c) := by
  rcases Nat.lt_or_ge addr.toNat s.mem.words with hin | hout
  · rw [memWrite_of_inRange s hin, memWrite_of_inRange (s.writeCc c) hin]
    rfl
  · rw [memWrite_of_outOfRange s hout, memWrite_of_outOfRange (s.writeCc c) hout]
    rfl

theorem CcBlind.write {addr v : Word} (hi : updatesCc i = false) (h : s.orFatal (s.memWrite addr v) .next = .next t) :
    CcBlind i c t ((s.writeCc c).orFatal ((s.writeCc c).memWrite addr v) .next) := by
  refine .inr ⟨?_, fun hyes => absurd (hyes.symm.trans hi) (by simp)⟩
  rw [memWrite_writeCc]
  rcases orFatal_cases h with ⟨u, hu, hnext⟩ | ⟨r, hr, rfl⟩
  · obtain rfl := Host.Outcome.next.inj hnext
    rw [hu]
    rfl
  · rw [hr]
    rfl

/-- R29: no instruction but BR and TRAP reads CC. -/
theorem exec_writeCc (hbr : ∀ n z p off9, i ≠ .br n z p off9) (htrap : ∀ payload, i ≠ .trap payload)
    (h : exec i s = .next t) (c : Cond) : CcBlind i c t (exec i (s.writeCc c)) := by
  cases i with
  | addReg | andReg | not => exact .result h
  | addImm dr sr1 imm5 => rw [exec_addImm] at h ⊢; exact .result h
  | andImm dr sr1 imm5 => rw [exec_andImm] at h ⊢; exact .result h
  | lea dr off9 => rw [exec_lea] at h ⊢; exact .result h
  | br n z p off9 => exact absurd rfl (hbr n z p off9)
  | jmp | rsv8 | rsv13 => exact .inr ⟨Host.Outcome.next.inj h ▸ rfl, fun hyes => by cases hyes⟩
  | jsrr baseR =>
    rw [exec_jsrr] at h ⊢
    exact .inr ⟨Host.Outcome.next.inj h ▸ rfl, fun hyes => by cases hyes⟩
  | jsr off11 =>
    rw [exec_jsr] at h ⊢
    exact .inr ⟨Host.Outcome.next.inj h ▸ rfl, fun hyes => by cases hyes⟩
  | ld dr off9 => rw [exec_ld] at h ⊢; exact .orFatal h fun _ => .result
  | ldi dr off9 => rw [exec_ldi] at h ⊢; exact .orFatal h fun _ hptr => .orFatal hptr fun _ => .result
  | ldr dr baseR off6 => rw [exec_ldr] at h ⊢; exact .orFatal h fun _ => .result
  | st sr off9 => rw [exec_st] at h ⊢; exact .write rfl h
  | sti sr off9 => rw [exec_sti] at h ⊢; exact .orFatal h fun _ => .write rfl
  | str sr baseR off6 => rw [exec_str] at h ⊢; exact .write rfl h
  | trap payload => exact absurd rfl (htrap payload)

end

/-- Settles O48: either answer differs in CC at most, and a result instruction that raised no fatal event has set CC. -/
theorem onlyBranchesReadCc : Obligations.OnlyBranchesReadCc := by
  intro i s t c hbr htrap hexec
  rcases exec_writeCc hbr htrap hexec c with h | ⟨h, hfatal⟩
  · exact ⟨t, h, rfl, fun _ _ _ => rfl⟩
  · refine ⟨t.writeCc c, h, rfl, fun hcc _ hrun => ?_⟩
    obtain ⟨r, hr⟩ := hfatal hcc
    exact absurd (hr.symm.trans hrun) (by simp)

/-! ## Progress -/

theorem orFatal_next {α : Type} {k : α → Result} (hk : ∀ v, ∃ t, k v = .next t) (s : State) (x : Except FatalReason α) :
    ∃ t, s.orFatal x k = .next t := by
  cases x with
  | ok v => exact hk v
  | error r => exact ⟨_, rfl⟩

/-- R211: an instruction answers a next state, but for a TRAP at the call that never returns. -/
theorem exec_next_or_hangs (i : Instr) (s : State) :
    (∃ t, exec i s = .next t) ∨
      (exec i s = .fault .handlerNeverReturns ∧ s.trapHang = some s.trapCalls ∧ ∃ payload, i = .trap payload) := by
  have hnext : ∀ u : State, ∃ t, (.next u : Result) = .next t := fun u => ⟨u, rfl⟩
  cases i with
  | trap payload =>
    rw [exec_trap]
    rcases trapCall_cases s (trapWord payload) with ⟨hhang, hstuck⟩ | ⟨_, hret⟩
    · exact .inr ⟨hstuck, hhang, payload, rfl⟩
    · exact .inl ⟨_, hret⟩
  | addReg | andReg | not | jmp | rsv8 | rsv13 => exact .inl ⟨_, rfl⟩
  | addImm dr sr1 imm5 => exact .inl ⟨_, exec_addImm s dr sr1 imm5⟩
  | andImm dr sr1 imm5 => exact .inl ⟨_, exec_andImm s dr sr1 imm5⟩
  | br n z p off9 => exact .inl ⟨_, exec_br s n z p off9⟩
  | jsrr baseR => exact .inl ⟨_, exec_jsrr s baseR⟩
  | jsr off11 => exact .inl ⟨_, exec_jsr s off11⟩
  | lea dr off9 => exact .inl ⟨_, exec_lea s dr off9⟩
  | ld dr off9 => exact .inl (exec_ld s dr off9 ▸ orFatal_next (fun _ => hnext _) s _)
  | ldi dr off9 => exact .inl (exec_ldi s dr off9 ▸ orFatal_next (fun _ => orFatal_next (fun _ => hnext _) s _) s _)
  | ldr dr baseR off6 => exact .inl (exec_ldr s dr baseR off6 ▸ orFatal_next (fun _ => hnext _) s _)
  | st sr off9 => exact .inl (exec_st s sr off9 ▸ orFatal_next hnext s _)
  | sti sr off9 => exact .inl (exec_sti s sr off9 ▸ orFatal_next (fun _ => orFatal_next hnext s _) s _)
  | str sr baseR off6 => exact .inl (exec_str s sr baseR off6 ▸ orFatal_next hnext s _)

/-- R211, R92: the same of a running machine's step. -/
theorem step_next_or_hangs {s : State} (hrun : s.status = .running) :
    (∃ t, step s = .next t) ∨
      (step s = .fault .handlerNeverReturns ∧ s.trapHang = some s.trapCalls ∧
        ∃ w payload, s.memRead s.pc = .ok w ∧ decode w = .ok (.trap payload)) := by
  rcases memRead_cases s s.pc with ⟨_, hw⟩ | ⟨hout, _⟩
  · rw [step_eq_exec hrun hw (decode_eq_ok _)]
    rcases exec_next_or_hangs (instrOfClass _ (opcodeOf _)) s.incPc with hnext | ⟨hstuck, hhang, payload, hi⟩
    · exact .inl hnext
    · exact .inr ⟨hstuck, hhang, _, payload, hw, hi ▸ decode_eq_ok _⟩
  · exact .inl ⟨_, step_of_fetch_outOfRange hrun hout⟩

/-- Settles O56: a running machine steps or hangs, and the end of a run is a fault, so nothing is refused. -/
theorem runningMachineAlwaysSteps : Obligations.RunningMachineAlwaysSteps := by
  refine ⟨fun s hrun => step_next_or_hangs hrun, fun s r href => ?_⟩
  cases hstatus : s.status with
  | running =>
    rcases step_next_or_hangs hstatus with ⟨t, ht⟩ | ⟨ht, _⟩
    · cases ht.symm.trans href
    · cases ht.symm.trans href
  | stopped =>
    rw [step_eq, hstatus] at href
    cases href
  | fatal e =>
    rw [step_eq, hstatus] at href
    cases href

/-! ## Stores -/

/-- R42, R43: a store at an address in range. -/
theorem orFatal_memWrite_stores {s : State} {addr : Word} (h : addr.toNat < s.mem.words) (v : Word) :
    ∃ t, s.orFatal (s.memWrite addr v) .next = .next t ∧ storesAt addr v s t := by
  have hwrite := memWrite_of_inRange s h v
  exact ⟨_, by rw [hwrite, orFatal_ok], storesAt_of_memWrite hwrite⟩

/-- R147: ST, where the address names a cell. -/
theorem exec_st_stores {s : State} {sr : RegId} {off9 : BitVec 9} {ea : Word} (hea : s.eaPcRel off9 = .ok ea)
    (hin : ea.toNat < s.mem.words) : ∃ t, exec (.st sr off9) s = .next t ∧ storesAt ea (s.readReg sr) s t := by
  obtain rfl := Except.ok.inj ((eaPcRel_ok s off9).symm.trans hea)
  rw [exec_st]
  exact orFatal_memWrite_stores hin _

/-- R148: STI, where the pointer can be read and names a cell. -/
theorem exec_sti_stores {s : State} {sr : RegId} {off9 : BitVec 9} {ptr : Word} (hptr : s.eaIndirect off9 = .ok ptr)
    (hin : ptr.toNat < s.mem.words) : ∃ t, exec (.sti sr off9) s = .next t ∧ storesAt ptr (s.readReg sr) s t := by
  rw [exec_sti, ← eaIndirect_eq, hptr, orFatal_ok]
  exact orFatal_memWrite_stores hin _

/-- R149: STR, where the address names a cell. -/
theorem exec_str_stores {s : State} {sr baseR : RegId} {off6 : BitVec 6} {ea : Word} (hea : s.eaBase baseR off6 = .ok ea)
    (hin : ea.toNat < s.mem.words) : ∃ t, exec (.str sr baseR off6) s = .next t ∧ storesAt ea (s.readReg sr) s t := by
  obtain rfl := Except.ok.inj ((eaBase_ok s baseR off6).symm.trans hea)
  rw [exec_str]
  exact orFatal_memWrite_stores hin _

theorem memRead_of_ticksKeeping {a : Word} : ∀ {n : Nat} {s u : State}, ticksKeeping a n s u → u.memRead a = s.memRead a
  | 0, _, _, h => h ▸ rfl
  | _ + 1, _, _, ⟨_, _, hkept, hrest⟩ => (memRead_of_ticksKeeping hrest).trans hkept

/-- Settles O57: the tick runs the store, the ticks between keep the cell, and the later fetch reads it. -/
theorem laterFetchesRunTheStoredWord : Obligations.LaterFetchesRunTheStoredWord := by
  intro s w sr i a hrun hw hi hstore hin
  have hexec : ∃ t, exec i s.incPc = .next t ∧ storesAt a (s.readReg sr) s.incPc t := by
    rcases hstore with ⟨off9, rfl, hea⟩ | ⟨off9, rfl, hptr⟩ | ⟨baseR, off6, rfl, hea⟩
    · exact exec_st_stores hea hin
    · exact exec_sti_stores hptr hin
    · exact exec_str_stores hea hin
  obtain ⟨t, ht, hcell, _, _, hpc, _⟩ := hexec
  refine ⟨t, (step_eq_exec hrun hw hi).trans ht, hpc, hcell, fun n u j hticks hurun hupc hj => ?_⟩
  subst hupc
  exact step_eq_exec hurun ((memRead_of_ticksKeeping hticks).trans hcell) hj

end Sys2Proof

/-! SUPPORT. The instructions one by one: the words of each form, its effect and its frame (R100 to R172). -/

namespace Sys2Proof

open Machine

/-! ## Words with unused bits

A form without unused bits has one word per instruction, its encoding, which O13 reads back. -/

section
variable (dr sr baseR sr1 sr2 : RegId)

/-- R61, format OPERATE with a register: where the fields of such a word are read back. -/
theorem fields_operateReg (op : BitVec 4) (unused : BitVec 2) (w : Word)
    (hw : w = op ++ dr ++ sr1 ++ 0b0#1 ++ unused ++ sr2) :
    w.extractLsb' 12 4 = op ∧ w.extractLsb' 9 3 = dr ∧ w.extractLsb' 6 3 = sr1 ∧ w.extractLsb' 0 3 = sr2 ∧
      w.getLsbD 5 = false := by
  subst hw
  refine ⟨?_, ?_, ?_, ?_, ?_⟩ <;>
    simp (disch := omega) only [BitVec.extractLsb'_append_eq_of_le, BitVec.extractLsb'_append_eq_of_add_le, Nat.reduceSub,
      BitVec.extractLsb'_eq_self, BitVec.getLsbD_append, Nat.reduceLT, if_true, if_false, BitVec.reduceGetLsb]

/-- R61, formats NOT and JMP: where the fields of such a word are read back. -/
theorem fields_twoRegisters (op : BitVec 4) (a b : RegId) (low : BitVec 6) (w : Word) (hw : w = op ++ a ++ b ++ low) :
    w.extractLsb' 12 4 = op ∧ w.extractLsb' 9 3 = a ∧ w.extractLsb' 6 3 = b := by
  subst hw
  refine ⟨?_, ?_, ?_⟩ <;>
    simp (disch := omega) only [BitVec.extractLsb'_append_eq_of_le, BitVec.extractLsb'_append_eq_of_add_le, Nat.reduceSub,
      BitVec.extractLsb'_eq_self]

theorem decode_addReg_word (unused : BitVec 2) :
    decode (0b0001#4 ++ dr ++ sr1 ++ 0b0#1 ++ unused ++ sr2) = .ok (.addReg dr sr1 sr2) := by
  obtain ⟨hop, hdr, hsr1, hsr2, hsel⟩ := fields_operateReg dr sr1 sr2 0b0001#4 unused _ rfl
  rw [decode_of_opcodeField .add hop, instrOfClass, hdr, hsr1, hsr2, hsel]
  rfl

theorem decode_andReg_word (unused : BitVec 2) :
    decode (0b0101#4 ++ dr ++ sr1 ++ 0b0#1 ++ unused ++ sr2) = .ok (.andReg dr sr1 sr2) := by
  obtain ⟨hop, hdr, hsr1, hsr2, hsel⟩ := fields_operateReg dr sr1 sr2 0b0101#4 unused _ rfl
  rw [decode_of_opcodeField .and hop, instrOfClass, hdr, hsr1, hsr2, hsel]
  rfl

theorem decode_not_word (unused : BitVec 6) : decode (0b1001#4 ++ dr ++ sr ++ unused) = .ok (.not dr sr) := by
  obtain ⟨hop, hdr, hsr⟩ := fields_twoRegisters 0b1001#4 dr sr unused _ rfl
  rw [decode_of_opcodeField .not hop, instrOfClass, hdr, hsr]

theorem decode_jmp_word (high : BitVec 3) (low : BitVec 6) :
    decode (0b1100#4 ++ high ++ baseR ++ low) = .ok (.jmp baseR) := by
  obtain ⟨hop, _, hbase⟩ := fields_twoRegisters 0b1100#4 high baseR low _ rfl
  rw [decode_of_opcodeField .jmp hop, instrOfClass, hbase]

theorem decode_jsrr_word (high : BitVec 2) (low : BitVec 6) :
    decode (0b01000#5 ++ high ++ baseR ++ low) = .ok (.jsrr baseR) := by
  obtain ⟨hop, hsel, hbase⟩ : (0b01000#5 ++ high ++ baseR ++ low : Word).extractLsb' 12 4 = opcodeValue .jsr ∧
      (0b01000#5 ++ high ++ baseR ++ low : Word).getLsbD 11 = false ∧
      (0b01000#5 ++ high ++ baseR ++ low : Word).extractLsb' 6 3 = baseR := by
    refine ⟨?_, ?_, ?_⟩ <;>
      simp (disch := omega) only [BitVec.extractLsb'_append_eq_of_le, BitVec.extractLsb'_append_eq_of_add_le,
        Nat.reduceSub, BitVec.extractLsb'_eq_self, BitVec.getLsbD_append, Nat.reduceLT, if_false, BitVec.reduceGetLsb]
    rfl
  rw [decode_of_opcodeField .jsr hop, instrOfClass, hsel, hbase]
  rfl

theorem decode_reserved_word (unused : BitVec 12) :
    decode (0b1000#4 ++ unused) = .ok .rsv8 ∧ decode (0b1101#4 ++ unused) = .ok .rsv13 := by
  have hop (op : BitVec 4) : (op ++ unused : Word).extractLsb' 12 4 = op := by
    simp (disch := omega) only [BitVec.extractLsb'_append_eq_of_le, Nat.reduceSub, BitVec.extractLsb'_eq_self]
  exact ⟨decode_of_opcodeField .rsv8 (hop _), decode_of_opcodeField .rsv13 (hop _)⟩

end

/-! ## Operate instructions

From here to the stores each statement has two parts: the word, read back by O13 or by the lemma on its format; and the
meaning with its operands resolved, followed by the frame of the one shared operation that it ends in. -/

/-- Settles O17: the sum is the result that `defineResult` writes. -/
theorem addRegisterForm : Obligations.AddRegisterForm :=
  fun dr sr1 sr2 unused s =>
    ⟨decode_addReg_word dr sr1 sr2 unused, _, exec_addReg s dr sr1 sr2, definesResult_defineResult s dr _⟩

/-- Settles O18: the sum with the extended immediate is the result that `defineResult` writes. -/
theorem addImmediateForm : Obligations.AddImmediateForm :=
  fun dr sr1 imm5 s => ⟨decodeReadsBackEveryEncoding (.addImm dr sr1 imm5), _, exec_addImm s dr sr1 imm5,
    definesResult_defineResult s dr _⟩

/-- Settles O19: the conjunction is the result that `defineResult` writes. -/
theorem andRegisterForm : Obligations.AndRegisterForm :=
  fun dr sr1 sr2 unused s =>
    ⟨decode_andReg_word dr sr1 sr2 unused, _, exec_andReg s dr sr1 sr2, definesResult_defineResult s dr _⟩

/-- Settles O20: the conjunction with the extended immediate is the result that `defineResult` writes. -/
theorem andImmediateForm : Obligations.AndImmediateForm :=
  fun dr sr1 imm5 s => ⟨decodeReadsBackEveryEncoding (.andImm dr sr1 imm5), _, exec_andImm s dr sr1 imm5,
    definesResult_defineResult s dr _⟩

/-- Settles O21: the complement is the result that `defineResult` writes. -/
theorem notComplementsTheRegister : Obligations.NotComplementsTheRegister :=
  fun dr sr unused s => ⟨decode_not_word dr sr unused, _, exec_not s dr sr, definesResult_defineResult s dr _⟩

/-- Settles O22: both forms write one sum of words, which is a sum modulo 2^16 in either reading. -/
theorem addIsOneSumForBothSigns : Obligations.AddIsOneSumForBothSigns := by
  intro dr sr1 s t
  refine ⟨fun sr2 hexec => ?_, fun imm5 op2 hop2 hexec => ?_⟩
  · rw [exec_addReg] at hexec
    rw [← Host.Outcome.next.inj hexec, defineResult_readReg_same]
    exact ⟨BitVec.toNat_add _ _, BitVec.toInt_add _ _⟩
  · obtain rfl := Except.ok.inj ((sext5_ok imm5).symm.trans hop2)
    have hsigned : (imm5.signExtend 16).toInt = imm5.toInt := BitVec.toInt_signExtend_of_le (by omega)
    rw [exec_addImm] at hexec
    rw [← Host.Outcome.next.inj hexec, defineResult_readReg_same, ← hsigned]
    exact ⟨BitVec.toNat_add _ _, BitVec.toInt_add _ _⟩

/-- A second result in the same register hides the first, flags and all. -/
theorem defineResult_defineResult (s : State) (dr : RegId) (v w : Word) :
    (s.defineResult dr v).defineResult dr w = s.defineResult dr w := by
  have hregs : ((s.writeReg dr v).writeReg dr w).regs = (s.writeReg dr w).regs := Vector.set_set v dr.isLt
  simp only [State.defineResult, readReg_writeReg_same]
  exact congrArg (fun regs => { s with regs := regs, cc := condOf w }) hregs

/-- Settles O23: the three results go to one register, so the last alone is seen, and the minuend is not touched. -/
theorem subtractionInThreeInstructions : Obligations.SubtractionInThreeInstructions := by
  intro dr a b s hne
  refine ⟨_, _, _, exec_not s dr b, exec_addImm _ dr dr 1, exec_addReg _ dr a dr, ?_⟩
  have hdiff : s.readReg a + (~~~(s.readReg b) + (1 : BitVec 5).signExtend 16) = s.readReg a - s.readReg b := by
    rw [show (1 : BitVec 5).signExtend 16 = 1#16 from rfl, ← BitVec.neg_eq_not_add, BitVec.sub_eq_add_neg]
  simp only [defineResult_defineResult, defineResult_readReg_same, defineResult_readReg_ne _ _ _ _ hne, hdiff]
  exact definesResult_defineResult s dr _

/-! ## Control transfer -/

/-- Settles O25: a branch not taken writes PC with what it was. -/
theorem branchTakenOrNot : Obligations.BranchTakenOrNot :=
  fun n z p off9 s => ⟨decodeReadsBackEveryEncoding (.br n z p off9), _, exec_br_eq_writePc s n z p off9,
    transfersTo_writePc s _⟩

/-- Settles O26: PC alone is written. -/
theorem jumpThroughRegister : Obligations.JumpThroughRegister :=
  fun high baseR low s => ⟨decode_jmp_word baseR high low, _, exec_jmp s baseR, transfersTo_writePc s _⟩

/-- Settles O27: the base is read after the link, so it is the old PC where BaseR is R7. -/
theorem callThroughRegister : Obligations.CallThroughRegister := by
  intro high baseR low s
  refine ⟨decode_jsrr_word baseR high low, _, exec_jsrr s baseR, ?_⟩
  simp only [@eq_comm _ linkReg baseR]
  exact callsTo_link s _

/-- Settles O28: the link step leaves PC, so the target is relative to the old one. -/
theorem callPcRelative : Obligations.CallPcRelative :=
  fun off11 s => ⟨decodeReadsBackEveryEncoding (.jsr off11), _, exec_jsr s off11, callsTo_link s _⟩

/-! ## Loads, stores and address load -/

/-- Settles O30: the read succeeds by hypothesis, and its value is the result. -/
theorem loadPcRelative : Obligations.LoadPcRelative :=
  fun dr off9 s => ⟨decodeReadsBackEveryEncoding (.ld dr off9), fun v hv =>
    ⟨_, by rw [exec_ld, hv, orFatal_ok], definesResult_defineResult s dr v⟩⟩

/-- Settles O31: both reads succeed by hypothesis, and the second's value is the result. -/
theorem loadIndirect : Obligations.LoadIndirect :=
  fun dr off9 s => ⟨decodeReadsBackEveryEncoding (.ldi dr off9), fun ptr v hptr hv =>
    ⟨_, by rw [exec_ldi, hptr, orFatal_ok, hv, orFatal_ok], definesResult_defineResult s dr v⟩⟩

/-- Settles O32: the address is computed in the state before the write of the result. -/
theorem loadBaseOffset : Obligations.LoadBaseOffset :=
  fun dr baseR off6 s => ⟨decodeReadsBackEveryEncoding (.ldr dr baseR off6), fun v hv =>
    ⟨_, by rw [exec_ldr, hv, orFatal_ok], definesResult_defineResult s dr v⟩⟩

/-- Settles O33: the address itself is the result. -/
theorem loadEffectiveAddress : Obligations.LoadEffectiveAddress :=
  fun dr off9 s =>
    ⟨decodeReadsBackEveryEncoding (.lea dr off9), _, exec_lea s dr off9, definesResult_defineResult s dr _⟩

/-- Settles O34: the word, and the store at the address the mode answers. -/
theorem storePcRelative : Obligations.StorePcRelative :=
  fun sr off9 _ => ⟨decodeReadsBackEveryEncoding (.st sr off9), fun _ => exec_st_stores⟩

/-- R142: the pointer, read at the address that the PC-relative mode answers. -/
theorem eaIndirect_of_eaPcRel {s : State} {off9 : BitVec 9} {ea : Word} (h : s.eaPcRel off9 = .ok ea) :
    s.eaIndirect off9 = s.memRead ea := by
  rw [State.eaIndirect, h]

/-- Settles O35: the word, and the store at the pointer. -/
theorem storeIndirect : Obligations.StoreIndirect :=
  fun sr off9 _ => ⟨decodeReadsBackEveryEncoding (.sti sr off9), fun _ _ hea hptr =>
    exec_sti_stores ((eaIndirect_of_eaPcRel hea).trans hptr)⟩

/-- Settles O36: the word, and the store at the address the mode answers. -/
theorem storeBaseOffset : Obligations.StoreBaseOffset :=
  fun sr baseR off6 _ => ⟨decodeReadsBackEveryEncoding (.str sr baseR off6), fun _ => exec_str_stores⟩

/-- Settles O37: the first access out of range, the pointer's or the data's, is answered before anything is written. -/
theorem dataAccessOutOfRangeIsFatal : Obligations.DataAccessOutOfRangeIsFatal := by
  intro r baseR off9 off6 s
  refine ⟨fun ea hea hout => ?_, fun ea ptr hea hptr hout => ?_, fun ea hea hout => ?_⟩
  · obtain rfl := Except.ok.inj ((eaPcRel_ok s off9).symm.trans hea)
    rw [exec_ld, exec_st, exec_ldi, exec_sti, memRead_of_outOfRange s hout, memWrite_of_outOfRange s hout]
    exact ⟨rfl, rfl, rfl, rfl⟩
  · obtain rfl := Except.ok.inj ((eaPcRel_ok s off9).symm.trans hea)
    rw [exec_ldi, exec_sti, hptr, orFatal_ok, orFatal_ok, memRead_of_outOfRange s hout, memWrite_of_outOfRange s hout]
    exact ⟨rfl, rfl⟩
  · obtain rfl := Except.ok.inj ((eaBase_ok s baseR off6).symm.trans hea)
    rw [exec_ldr, exec_str, memRead_of_outOfRange s hout, memWrite_of_outOfRange s hout]
    exact ⟨rfl, rfl⟩

/-! ## TRAP and the reserved opcodes -/

/-- Settles O39: the branch of `trapCall` where the handler returns. -/
theorem trapHandsTheRawWordToTheHandler : Obligations.TrapHandsTheRawWordToTheHandler :=
  fun payload _ => ⟨decodeReadsBackEveryEncoding (.trap payload), fun hret => ⟨_, rfl, if_neg hret⟩⟩

/-- Settles O40: the branch of `trapCall` where it does not. -/
theorem trapIsStuckWhereTheHandlerNeverReturns : Obligations.TrapIsStuckWhereTheHandlerNeverReturns :=
  fun _ _ hhang => if_pos hhang

/-- Settles O43: the opcode value alone is decoded, and the meaning is the fatal event. -/
theorem reservedOpcodesAreFatal : Obligations.ReservedOpcodesAreFatal :=
  fun unused s =>
    ⟨(decode_reserved_word unused).1, (decode_reserved_word unused).2, exec_rsv8 s, exec_rsv13 s⟩

/-! ## The handler's calls -/

/-- R80: the effect of one accessor call, with its frame. -/
theorem callLeaves_of_accessorCall {c : AccessorCall} {s t : State} (h : s.accessorCall c = .ok t) : callLeaves c s t := by
  rcases accessorCall_cases h with ⟨id, v, rfl, rfl⟩ | ⟨v, rfl, rfl⟩ | ⟨x, rfl, rfl⟩ | ⟨a, v, rfl, _, rfl⟩ | ⟨a, v, rfl, hw⟩
  · exact ⟨readReg_writeReg_same s id v, writeReg_regsKept s id v, fun _ _ => rfl, rfl, rfl, rfl, rfl, rfl, rfl⟩
  · exact transfersTo_writePc s v
  · exact ⟨rfl, fun _ _ => rfl, fun _ _ => rfl, rfl, rfl, rfl, rfl, rfl⟩
  · exact rfl
  · exact storesAt_of_memWrite hw

/-- R43: an accessor call at an address out of range. -/
theorem accessorCall_of_outOfRange {c : AccessorCall} {s : State} {a : Word} (ha : callAddress c = some a)
    (hout : s.mem.words ≤ a.toNat) : s.accessorCall c = .error (.accessFault a) := by
  cases c with
  | regWrite | pcWrite | ccWrite => cases ha
  | memRead b =>
    obtain rfl := Option.some.inj ha
    rw [State.accessorCall, memRead_of_outOfRange s hout]
    rfl
  | memWrite b v =>
    obtain rfl := Option.some.inj ha
    exact memWrite_of_outOfRange s hout v

/-- R171: `t` differs from `s` only in what some call of the list names. -/
def callsKeep (calls : List AccessorCall) (s t : State) : Prop :=
  (∀ r, (∀ v, AccessorCall.regWrite r v ∉ calls) → t.readReg r = s.readReg r) ∧
  ((∀ v, AccessorCall.pcWrite v ∉ calls) → t.pc = s.pc) ∧
  ((∀ c, AccessorCall.ccWrite c ∉ calls) → t.cc = s.cc) ∧
  (∀ a, (∀ v, AccessorCall.memWrite a v ∉ calls) → t.memRead a = s.memRead a) ∧
  t.mem.words = s.mem.words ∧ t.trapHang = s.trapHang

theorem callsKeep_refl (calls : List AccessorCall) (s : State) : callsKeep calls s s :=
  ⟨fun _ _ => rfl, fun _ => rfl, fun _ => rfl, fun _ _ => rfl, rfl, rfl⟩

theorem callsKeep_trans {calls : List AccessorCall} {s t u : State} (h : callsKeep calls s t) (h' : callsKeep calls t u) :
    callsKeep calls s u := by
  obtain ⟨hr, hp, hc, hm, hw, hh⟩ := h
  obtain ⟨hr', hp', hc', hm', hw', hh'⟩ := h'
  exact ⟨fun r hno => (hr' r hno).trans (hr r hno), fun hno => (hp' hno).trans (hp hno),
    fun hno => (hc' hno).trans (hc hno), fun a hno => (hm' a hno).trans (hm a hno), hw'.trans hw, hh'.trans hh⟩

theorem accessorCall_callsKeep {calls : List AccessorCall} {c : AccessorCall} {s t : State} (hc : c ∈ calls)
    (h : s.accessorCall c = .ok t) : callsKeep calls s t := by
  rcases accessorCall_cases h with ⟨id, v, rfl, rfl⟩ | ⟨v, rfl, rfl⟩ | ⟨x, rfl, rfl⟩ | ⟨a, v, rfl, _, rfl⟩ | ⟨a, v, rfl, hw⟩
  · exact ⟨fun r hno => readReg_writeReg_ne s id r v fun he => hno v (he ▸ hc), fun _ => rfl, fun _ => rfl,
      fun _ _ => rfl, rfl, rfl⟩
  · exact ⟨fun _ _ => rfl, fun hno => absurd hc (hno v), fun _ => rfl, fun _ _ => rfl, rfl, rfl⟩
  · exact ⟨fun _ _ => rfl, fun _ => rfl, fun hno => absurd hc (hno x), fun _ _ => rfl, rfl, rfl⟩
  · exact callsKeep_refl calls _
  · obtain ⟨_, hpc, hcc, hwords, _, _, hhang⟩ := memWrite_fields hw
    refine ⟨fun r _ => memWrite_readReg hw r, fun _ => hpc, fun _ => hcc, fun b hno => ?_, hwords, hhang⟩
    rw [memWrite_memRead hw, if_neg fun he : b = a => hno v (he ▸ hc)]

theorem runCalls_callsKeep {calls : List AccessorCall} {s t : State} (h : s.runCalls calls = .ok t) :
    callsKeep calls s t :=
  runCalls_induct (callsKeep calls s) calls s
    (fun _ _ _ hmem hkeep hcall => callsKeep_trans hkeep (accessorCall_callsKeep hmem hcall)) (callsKeep_refl calls s) h

/-- R171: whatever the handler's answer does, it changes only what its calls name. -/
theorem runHandler_callsKeep (s : State) (calls : List AccessorCall) (sig : Signal) :
    callsKeep calls s (s.runHandler calls sig) := by
  rcases runHandler_cases s calls sig with ⟨u, hu, heq⟩ | ⟨a, _, _, heq⟩
  · obtain ⟨hr, hp, hc, hm, hw, hh⟩ := runCalls_callsKeep hu
    rw [heq]
    exact ⟨fun r hno => (complete_readReg _ r sig).trans (hr r hno), fun hno => (complete_pc _ sig).trans (hp hno),
      fun hno => (complete_cc _ sig).trans (hc hno), fun b hno => (complete_memRead _ sig b).trans (hm b hno),
      (congrArg Memory.words (complete_mem _ sig)).trans hw, (complete_trapHang _ sig).trans hh⟩
  · rw [heq]
    exact callsKeep_refl calls s

/-- Settles O41: one call, then the rest in the state it left; a call out of range ends the list; and the frame of all
the calls together. -/
theorem handlersCallsTakeEffectInOrder : Obligations.HandlersCallsTakeEffectInOrder := by
  intro s sig
  refine ⟨runCalls_nil s, fun c rest => ⟨fun hin => ?_, fun a ha hout => ?_⟩, fun calls t ht => ?_, fun calls r hr => ?_,
    fun calls t ht => ?_⟩
  · obtain ⟨t, ht⟩ := accessorCall_ok_of_inRange hin
    exact ⟨t, callLeaves_of_accessorCall ht, runCalls_cons_ok ht rest⟩
  · exact runCalls_cons_error (accessorCall_of_outOfRange ha hout) rest
  · obtain ⟨_, _, hcalls, _⟩ := runCalls_keeps ht
    exact ⟨runHandler_of_runCalls_ok ht .continue, runHandler_of_runCalls_ok ht .haltOrError, hcalls⟩
  · rw [State.runHandler, hr]
  · exact ht ▸ runHandler_callsKeep s calls sig

end Sys2Proof

/-! SUPPORT. The bit-field toolkit: fields, single bits and sign extension as numbers, and the answers outside the
preconditions (R82 to R86). -/

namespace Sys2Proof

open Machine

/-- Settles O2: a field is narrower than a word, so widening it loses nothing. -/
theorem getBitsReadsTheField : Obligations.GetBitsReadsTheField := by
  intro w n width _ h1 h16 hle
  refine ⟨_, getBits_ok w n width h1 hle, ?_⟩
  rw [BitVec.toNat_setWidth_of_le h16, BitVec.extractLsb'_toNat, Nat.shiftRight_eq_div_pow]

/-- A value below `2 ^ width` has no bit from `width` up. -/
theorem getLsbD_of_toNat_lt {v : Word} {width i : Nat} (h : v.toNat < 2 ^ width) (hi : width ≤ i) :
    v.getLsbD i = false :=
  Nat.testBit_lt_two_pow (h.trans_le (Nat.pow_le_pow_right (by omega) hi))

/-- Settles O3: below the width the field's bits are the placed value's, and from the width up it has none. -/
theorem getBitsRecoversAPlacedField : Obligations.GetBitsRecoversAPlacedField := by
  intro w v n width h1 hle hv
  rw [getBits_ok _ n width h1 hle]
  refine congrArg Except.ok (BitVec.eq_of_getLsbD_eq fun i hi => ?_)
  by_cases hw : i < width
  · have hni : n + i < 16 := by omega
    simp [hi, hw, hni, getLsbD_lowMask width i (by omega)]
  · simp [hw, getLsbD_of_toNat_lt hv (Nat.not_lt.1 hw)]

/-- The word with one bit set, bit by bit. -/
theorem getLsbD_one_shiftLeft {n m : Nat} (hm : m < 16) : (1#16 <<< n).getLsbD m = decide (m = n) := by
  rw [← BitVec.twoPow_eq, BitVec.getLsbD_twoPow]
  by_cases h : m = n
  · simp [h, h ▸ hm]
  · simp [h, Ne.symm h]

/-- Settles O4: the word with bit `n` set, joined or masked out. -/
theorem setAndClearBitChangeOneBit : Obligations.SetAndClearBitChangeOneBit := by
  intro w n hn
  refine ⟨⟨_, if_pos hn, fun m hm => ?_⟩, ⟨_, if_pos hn, fun m hm => ?_⟩⟩
  · rw [BitVec.getLsbD_or, getLsbD_one_shiftLeft hm]
    by_cases h : m = n <;> simp [h]
  · rw [BitVec.getLsbD_and, BitVec.getLsbD_not, getLsbD_one_shiftLeft hm]
    by_cases h : m = n <;> simp [h, hm]

/-- R84: `sign_extend` of any word is that of its low `width` bits. -/
theorem signExtend_eq (value : Word) {width : Nat} (h1 : 1 ≤ width) (h16 : width ≤ 16) :
    signExtend value width = .ok ((value.setWidth width).signExtend 16) := by
  have hlow (i : Nat) (hi : i < width) : ((value.setWidth width).setWidth 16).getLsbD i = value.getLsbD i := by
    have hi16 : i < 16 := by omega
    simp [hi, hi16]
  rw [← signExtend_field width _ h1 h16]
  simp only [signExtend, h1, h16, and_self, if_true, hlow (width - 1) (by omega)]
  congr 2 <;> refine BitVec.eq_of_getLsbD_eq fun i hi => ?_
  · by_cases hw : i < width
    · rw [BitVec.getLsbD_or, BitVec.getLsbD_or, hlow i hw]
    · simp [hi, hw, getElem_lowMask width i h16 hi]
  · by_cases hw : i < width
    · rw [BitVec.getLsbD_and, BitVec.getLsbD_and, hlow i hw]
    · simp [hi, hw, getElem_lowMask width i h16 hi]

/-- Settles O5: the two's-complement value of the low bits as a number of that width. -/
theorem signExtendGivesTheSignedValue : Obligations.SignExtendGivesTheSignedValue := by
  intro value width h1 h16
  refine ⟨_, signExtend_eq value h1 h16, ?_⟩
  have hpow : 2 ^ width = 2 * 2 ^ (width - 1) := by rw [← Nat.pow_succ', Nat.succ_eq_add_one, Nat.sub_add_cancel h1]
  have hcast : ((2 ^ width : Nat) : Int) = 2 ^ width := Nat.cast_pow 2 width
  rw [BitVec.toInt_signExtend_of_le h16, BitVec.toInt_eq_toNat_cond, BitVec.toNat_setWidth]
  split <;> split <;> omega

/-- Settles O6: each range check, failed and passed. -/
theorem toolkitFailsLoudlyOutsideItsPreconditions : Obligations.ToolkitFailsLoudlyOutsideItsPreconditions := by
  intro w n width
  refine ⟨fun h => ⟨getBit_error w h, if_neg (by omega), if_neg (by omega)⟩, fun h => if_neg (by omega),
    fun h => if_neg (by omega), fun h => ⟨⟨_, getBit_ok w n h⟩, ⟨_, if_pos h⟩, ⟨_, if_pos h⟩⟩,
    fun _ h1 hle => ⟨_, getBits_ok w n width h1 hle⟩, fun h1 h16 => ⟨_, signExtend_eq w h1 h16⟩⟩

end Sys2Proof

/-! SUPPORT. Reset and launch: the state at reset, the four answers of the image check, and the loaded image
(R200 to R206). -/

namespace Sys2Proof

open Machine

theorem reset_readReg (r : RegId) : State.reset.readReg r = 0 := by
  simp [State.readReg, State.reset]

/-- Settles O58: each field by its definition; every address is below 65536, and no cell is listed. -/
theorem resetState : Obligations.ResetState :=
  ⟨rfl, rfl, reset_mem_wf, reset_readReg, rfl, rfl, fun a => memRead_of_inRange State.reset a.isLt⟩

/-! ## The image -/

/-- R203: the two bytes of each word, the high one first. -/
def imageBytes (words : List Word) : List Byte := words.flatMap fun w => [w.extractLsb' 8 8, w.extractLsb' 0 8]

theorem extractLsb'_append_bytes (w : Word) : (w.extractLsb' 8 8 ++ w.extractLsb' 0 8 : Word) = w :=
  (BitVec.extractLsb'_append_extractLsb'_eq_extractLsb' rfl).trans BitVec.extractLsb'_eq_self

/-- R203: the words of the bytes of a list of words are that list. -/
theorem imageWords_imageBytes (words : List Word) : imageWords (imageBytes words) = words := by
  induction words with
  | nil => rfl
  | cons w rest ih => exact congrArg₂ List.cons (extractLsb'_append_bytes w) ih

theorem length_imageBytes (words : List Word) : (imageBytes words).length = 2 * words.length := by
  induction words with
  | nil => rfl
  | cons w rest ih =>
    simp only [imageBytes, List.flatMap_cons, List.length_append, List.length_cons, List.length_nil] at ih ⊢
    omega

/-- R203: a file with no word is shorter than one. -/
theorem imageWords_eq_nil_iff (bytes : List Byte) : imageWords bytes = [] ↔ bytes.length < 2 := by
  match bytes with
  | [] => simp [imageWords]
  | [_] => simp [imageWords]
  | _ :: _ :: _ => simp [imageWords]

/-- R204: the four answers of the image check. -/
theorem checkImage_cases (memWords : Nat) (bytes : List Byte) :
    (bytes.length % 2 = 1 ∧ checkImage memWords bytes = .error .oddBytes) ∨
    (bytes.length % 2 = 0 ∧ bytes.length < 2 ∧ checkImage memWords bytes = .error .noLoadAddress) ∨
    ∃ load program, bytes.length % 2 = 0 ∧ imageWords bytes = load :: program ∧
      ((memWords < load.toNat + program.length ∧ checkImage memWords bytes = .error .doesNotFit) ∨
        (load.toNat + program.length ≤ memWords ∧ checkImage memWords bytes = .ok (load, program))) := by
  rcases Nat.mod_two_eq_zero_or_one bytes.length with heven | hodd
  · cases hwords : imageWords bytes with
    | nil => exact .inr (.inl ⟨heven, (imageWords_eq_nil_iff bytes).1 hwords, by simp [checkImage, heven, hwords]⟩)
    | cons load program =>
      refine .inr (.inr ⟨load, program, heven, rfl, ?_⟩)
      rcases Nat.lt_or_ge memWords (load.toNat + program.length) with hbig | hfits
      · exact .inl ⟨hbig, by simp [checkImage, heven, hwords, Nat.not_le.2 hbig]⟩
      · exact .inr ⟨hfits, by simp [checkImage, heven, hwords, hfits]⟩
  · exact .inl ⟨hodd, by simp [checkImage, hodd]⟩

/-- R204: a launch is refused exactly as its image is. -/
theorem launch_eq_error_iff (p : LaunchParams) (image : List Byte) (e : LaunchRefusal) :
    launch p image = .error e ↔ checkImage p.initMem.words image = .error e := by
  unfold launch
  cases checkImage p.initMem.words image with
  | error e' => simp
  | ok r => simp

/-- R200 to R206: what a launch of an accepted image answers. -/
theorem launch_of_checkImage_ok {p : LaunchParams} {image : List Byte} {load : Word} {program : List Word}
    (h : checkImage p.initMem.words image = .ok (load, program)) :
    launch p image = .ok
      { regs := p.initR, pc := p.entry.getD load, cc := p.initCc,
        mem := { p.initMem with cells := loadWords load.toNat p.initMem.cells program },
        status := .running, trapCalls := 0, trapHang := p.trapHang } := by
  rw [launch, h]

/-- Settles O60: the four answers of the image check, against each of the four clauses. -/
theorem launchRefusesMalformedImages : Obligations.LaunchRefusesMalformedImages := by
  intro p image
  simp only [launch_eq_error_iff]
  rcases checkImage_cases p.initMem.words image with ⟨hodd, h⟩ | ⟨heven, hshort, h⟩ | ⟨load, program, heven, hwords, hfit⟩
  · simp [h, hodd]
  · have hnil := (imageWords_eq_nil_iff image).2 hshort
    simp [h, heven, hshort, hnil]
  · have hlong : ¬image.length < 2 := fun hshort => by
      cases hwords.symm.trans ((imageWords_eq_nil_iff image).2 hshort)
    rcases hfit with ⟨hbig, h⟩ | ⟨hfits, h⟩
    · simp [h, heven, hlong, hwords, hbig]
    · simp [h, heven, hlong, hwords, hfits]

/-- R204: the address of a loaded word does not wrap. -/
theorem toNat_add_ofNat {load : Word} {k : Nat} (h : load.toNat + k < 65536) :
    (load + BitVec.ofNat 16 k).toNat = load.toNat + k := by
  rw [BitVec.toNat_add, BitVec.toNat_ofNat]
  omega

/-- Settles O59: the image is accepted, and each cell reads as `loadWords` left it. -/
theorem launchLoadsTheImage : Obligations.LaunchLoadsTheImage := by
  intro p load program hfits hwords
  have hcheck : checkImage p.initMem.words (imageBytes (load :: program)) = .ok (load, program) := by
    have heven : 2 * (load :: program).length % 2 ≠ 1 := by omega
    rw [checkImage, length_imageBytes, if_neg heven, imageWords_imageBytes]
    exact if_pos hfits
  refine ⟨_, launch_of_checkImage_ok hcheck, rfl, rfl, rfl, rfl, rfl, rfl, rfl, fun k w hk => ?_, fun a hout hin => ?_⟩
  · have hlt : k < program.length := (List.getElem?_eq_some_iff.1 hk).1
    have haddr : (load + BitVec.ofNat 16 k).toNat = load.toNat + k := toNat_add_ofNat (by omega)
    rw [memRead_of_inRange _ (by rw [haddr]; show _ < p.initMem.words; omega), readCell_loadWords, haddr, if_pos (by omega),
      Nat.add_sub_cancel_left, hk, Option.getD_some]
  · rw [memRead_of_inRange _ hin, readCell_loadWords]
    split
    · rw [List.getElem?_eq_none (by omega), Option.getD_none]
    · rfl

end Sys2Proof
